-- ==== Sys2Proof/Word.lean ====
section
/-! DEFINITION. The value types of the CDCU: bytes, the byte blocks the host hands over, and the numbers of `Num(FMT)`
(00_scope.md rules R8, R9, R11). No arithmetic stands here: it is in Machine/Operands.lean (bytes) and
Machine/Number.lean (numbers), where a repair can reach it. -/

namespace Sys2Proof

/-- A byte: 8 bits, an unsigned integer 0..255 (R9). -/
abbrev Byte := BitVec 8

/-- The contents of calibration block A when its length is right: 25 bytes (R25). -/
abbrev BlockA := Vector Byte 25

/-- The contents of calibration block B when its length is right: 7 bytes (R25). -/
abbrev BlockB := Vector Byte 7

/-- `SMP`, the live-sample block: always exactly 8 bytes, by type (R25). -/
abbrev SampleBlock := Vector Byte 8

/-- A value of an IEEE 754 binary format (R11, 93_implementation_defined.md GK4): a NaN, an infinity with its sign, or a
finite value as its sign and its magnitude. The magnitude of a finite value is an exact non-negative rational, so +0 and
-0 are `fin false 0` and `fin true 0`. There is one `nan`: R69 defines no NaN payload. Log entry 17. -/
inductive Ieee where
  | nan
  | inf (neg : Bool)
  | fin (neg : Bool) (mag : Rat)
deriving DecidableEq, Repr

/-- A number as a response carries it: a value of `Num(FMT)` under the name of its instance (R11, R37, R75: "a claim about
a result must name its instance"). -/
inductive Number where
  | exact (q : Rat)
  | binary64 (x : Ieee)
  | binary32 (x : Ieee)
deriving DecidableEq, Repr

end Sys2Proof
end

