-- ==== Sys2Proof/Config.lean ====
section
/-! DEFINITION. The parameters of the block (00_scope.md rule R8) and the free values of the model: what the spec leaves
open. A free value is a constant with no body, so no proof can see what it is. -/

namespace Sys2Proof

/-- The number format of the compensation datapath: the one open parameter (R8, R11; decision D7). The model holds the
chosen value in `State.fmt`, so that every statement about a state is a statement for every format (log entry 1). -/
inductive Fmt where
  | exact
  | binary64
  | binary32
deriving DecidableEq, Repr

/-- The format the spec names for a model that takes no argument (R8: "the spec's default is `binary64`"). -/
def Config.defaultFmt : Fmt := .binary64

/-- `NCOEF`, the number of coefficient registers (R8). -/
def Config.ncoef : Nat := 18

/-- `LEN_A`, the length of calibration block A (R8). -/
def Config.lenA : Nat := 25

/-- `LEN_B`, the length of calibration block B (R8). -/
def Config.lenB : Nat := 7

/-- `LEN_S`, the length of the live-sample block (R8). -/
def Config.lenS : Nat := 8

/-- `MAXLEN`, the largest length a calibration block operand can have (R8; decision D10). -/
def Config.maxLen : Nat := 255

/-- FREE VALUE. `ftrunc` of an infinity or of a NaN. R11 calls `ftrunc` total and states its value only "for every finite
value"; TEMP never reaches another (R62, R70). Log entry 7. -/
opaque Config.truncNonFinite : Ieee → Int

/-- FREE VALUE. The `exact` quotient of a number by zero: R11 says it "is never reached" and states no value. Log entry 8. -/
opaque Config.exactDivByZero : Rat → Rat

/-- FREE VALUE. The `info` byte of the answer to a frame that holds no byte at all: R81 wants "the code byte" and there is
none. One value: a response depends on nothing the block has done before (R23). Log entry 6. -/
opaque Config.emptyFrameInfo : Byte

end Sys2Proof
end

