-- ==== Sys2Proof/Syntax.lean ====
section
/-! DEFINITION. The five commands of the block in the abstract form of 30_encoding.md rule R37, which is the normative one:
a command and its typed operands. One constructor per row of spec/opcode_table.json. -/

namespace Sys2Proof

/-- A command (R37). Raw samples are unsigned of their width; `fine` is a 32-bit two's complement integer (R8). The two
calibration blocks arrive with a length, right or wrong (R25). -/
inductive Instr where
  /-- `CALDEC A=cala B=calb`: decode both calibration blocks (R51). -/
  | caldec (cala calb : List Byte)
  /-- `UNPACK S=smp`: unpack one live-sample block (R57). -/
  | unpack (smp : SampleBlock)
  /-- `TEMP rawT`: temperature compensation (R60). -/
  | temp (rawT : BitVec 20)
  /-- `PRESS rawP, fine`: pressure compensation (R64). -/
  | press (rawP : BitVec 20) (fine : BitVec 32)
  /-- `HUM rawH, fine`: humidity compensation (R67). -/
  | hum (rawH : BitVec 16) (fine : BitVec 32)
deriving DecidableEq, Repr

end Sys2Proof
end

