-- ==== Sys2Proof/WellFormed.lean ====
section
/-! DEFINITION. Which terms of `Instr` are commands a host can issue. Every operand but the two calibration blocks has
exactly the values of its type; a calibration block has a length in 0 .. `MAXLEN` (R8, R25, R37). -/

namespace Sys2Proof

/-- The operands of a command are of the types of R37: a calibration block's length is in 0 .. 255. -/
def Instr.wellFormed : Instr → Bool
  | .caldec cala calb => decide (cala.length ≤ Config.maxLen) && decide (calb.length ≤ Config.maxLen)
  | .unpack _ => true
  | .temp _ => true
  | .press _ _ => true
  | .hum _ _ => true

/-- `Instr.wellFormed` as a proposition. -/
abbrev Instr.WellFormed (i : Instr) : Prop := i.wellFormed = true

end Sys2Proof
end

