-- ==== Sys2Proof/Decode.lean ====
section
/-! DEFINITION. The command frame of 30_encoding.md rules R38, R43 and R44: the opcode table, the decoder from bytes to a
command (total; what is no command is rejected by name) and the encoder, written from the same rules. -/

namespace Sys2Proof

/-- The five commands without their operands. -/
inductive Opcode where
  | caldec
  | unpack
  | temp
  | press
  | hum
deriving DecidableEq, Repr

/-- One row of the opcode table: a code byte `c` names `op` when `c &&& mask = pattern`. -/
structure OpcodeRow where
  op : Opcode
  pattern : Byte
  mask : Byte
deriving DecidableEq, Repr

/-- The opcode table (R38; spec/opcode_table.json, columns `match` and `mask`). -/
def opcodeTable : List OpcodeRow :=
  [ ⟨.caldec, 0x01, 0xFF⟩,
    ⟨.unpack, 0x02, 0xFF⟩,
    ⟨.temp, 0x03, 0xFF⟩,
    ⟨.press, 0x04, 0xFF⟩,
    ⟨.hum, 0x05, 0xFF⟩ ]

/-- The command a code byte names; `none` for a reserved code (R38, R43). -/
def opcodeOf (code : Byte) : Option Opcode :=
  (opcodeTable.find? fun r => code &&& r.mask == r.pattern).map OpcodeRow.op

/-- The code byte of a command (R38). -/
def codeOf : Opcode → Byte
  | .caldec => 0x01
  | .unpack => 0x02
  | .temp => 0x03
  | .press => 0x04
  | .hum => 0x05

/-- Why a byte sequence spells no command. Each is answered `ReservedCommand` (R43, R44, R81). -/
inductive DecodeError where
  /-- There is no code byte. -/
  | emptyFrame
  /-- The code byte is 0x00 or 0x06 .. 0xFF (R43). -/
  | reservedCode (code : Byte)
  /-- The length is not the one the code (and length bytes) require (R44). -/
  | wrongLength (code : Byte)
  /-- A must-be-zero bit of a 4-byte raw operand is not zero (R44). -/
  | nonzeroPad (code : Byte)
deriving DecidableEq, Repr

/-- The little-endian 32-bit word of four frame bytes, lowest index first (R44). -/
def le32 (b0 b1 b2 b3 : Byte) : BitVec 32 := b3 ++ b2 ++ b1 ++ b0

/-- The four frame bytes of a 32-bit word, little-endian (R44). -/
def bytes32 (w : BitVec 32) : List Byte :=
  [w.extractLsb' 0 8, w.extractLsb' 8 8, w.extractLsb' 16 8, w.extractLsb' 24 8]

/-- A raw operand of `n` bits from its 4-byte word: `none` when a bit above the operand is not zero (R44). -/
def narrow (n : Nat) (w : BitVec 32) : Option (BitVec n) :=
  if (w.setWidth n).setWidth 32 = w then some (w.setWidth n) else none

/-- The operand bytes of CALDEC: a length byte and that many bytes of `CALA`, then the same for `CALB`, and nothing after. -/
def decodeCaldec : List Byte → Except DecodeError Instr
  | [] => .error (.wrongLength (codeOf .caldec))
  | lenA :: rest =>
    match rest.drop lenA.toNat with
    | [] => .error (.wrongLength (codeOf .caldec))
    | lenB :: calb =>
      if calb.length = lenB.toNat then .ok (.caldec (rest.take lenA.toNat) calb)
      else .error (.wrongLength (codeOf .caldec))

/-- The operand bytes of UNPACK: the 8 bytes of `SMP` in index order. -/
def decodeUnpack : List Byte → Except DecodeError Instr
  | [b0, b1, b2, b3, b4, b5, b6, b7] => .ok (.unpack #v[b0, b1, b2, b3, b4, b5, b6, b7])
  | _ => .error (.wrongLength (codeOf .unpack))

/-- The operand bytes of TEMP: `raw_t` as 4 bytes, bits 31..20 zero. -/
def decodeTemp : List Byte → Except DecodeError Instr
  | [b0, b1, b2, b3] =>
    match narrow 20 (le32 b0 b1 b2 b3) with
    | some rawT => .ok (.temp rawT)
    | none => .error (.nonzeroPad (codeOf .temp))
  | _ => .error (.wrongLength (codeOf .temp))

/-- The operand bytes of PRESS: `raw_p` as 4 bytes, bits 31..20 zero, then `fine` as 4 bytes. -/
def decodePress : List Byte → Except DecodeError Instr
  | [b0, b1, b2, b3, f0, f1, f2, f3] =>
    match narrow 20 (le32 b0 b1 b2 b3) with
    | some rawP => .ok (.press rawP (le32 f0 f1 f2 f3))
    | none => .error (.nonzeroPad (codeOf .press))
  | _ => .error (.wrongLength (codeOf .press))

/-- The operand bytes of HUM: `raw_h` as 4 bytes, bits 31..16 zero, then `fine` as 4 bytes. -/
def decodeHum : List Byte → Except DecodeError Instr
  | [b0, b1, b2, b3, f0, f1, f2, f3] =>
    match narrow 16 (le32 b0 b1 b2 b3) with
    | some rawH => .ok (.hum rawH (le32 f0 f1 f2 f3))
    | none => .error (.nonzeroPad (codeOf .hum))
  | _ => .error (.wrongLength (codeOf .hum))

/-- The command a frame spells, or why it spells none (R38, R43, R44). Total on any bytes. -/
def decode : List Byte → Except DecodeError Instr
  | [] => .error .emptyFrame
  | code :: operands =>
    match opcodeOf code with
    | none => .error (.reservedCode code)
    | some .caldec => decodeCaldec operands
    | some .unpack => decodeUnpack operands
    | some .temp => decodeTemp operands
    | some .press => decodePress operands
    | some .hum => decodeHum operands

/-- The frame of a command: the table of R44, row by row. -/
def encode : Instr → List Byte
  | .caldec cala calb =>
    codeOf .caldec :: (BitVec.ofNat 8 cala.length :: cala) ++ (BitVec.ofNat 8 calb.length :: calb)
  | .unpack smp => codeOf .unpack :: smp.toList
  | .temp rawT => codeOf .temp :: bytes32 (rawT.setWidth 32)
  | .press rawP fine => codeOf .press :: bytes32 (rawP.setWidth 32) ++ bytes32 fine
  | .hum rawH fine => codeOf .hum :: bytes32 (rawH.setWidth 32) ++ bytes32 fine

/-- Byte `i` of the number `w`, byte 0 its least significant: the host's numbering of a table row's bits. -/
def byteOfNat (w i : Nat) : Byte := BitVec.ofNat 8 (w / 256 ^ i)

/-- The frame length that a code (and, for CALDEC, its length bytes) requires, the bytes being those of the number `w`;
`short` for a reserved code, which requires none (R44). -/
def frameLength (short w : Nat) : Nat :=
  match opcodeOf (byteOfNat w 0) with
  | none => short
  | some .caldec =>
    let lenA := (byteOfNat w 1).toNat
    3 + lenA + (byteOfNat w (2 + lenA)).toNat
  | some .unpack => 9
  | some .temp => 5
  | some .press => 9
  | some .hum => 9

/-- The frame whose first `nbits` bits are those of `w` and whose other bits are zero, of the length its code requires. -/
def tableFrame (nbits w : Nat) : List Byte :=
  let v := w % 2 ^ nbits
  (List.range (frameLength ((nbits + 7) / 8) v)).map (byteOfNat v)

/-- What the decoder reads from the frame of a row of the opcode table (log entry 14). -/
def decodeTableWord (nbits w : Nat) : Option Instr :=
  match decode (tableFrame nbits w) with
  | .ok i => some i
  | .error _ => none

end Sys2Proof
end

