-- ==== Sys2Proof/Machine/State.lean ====
section
/-! DEFINITION. The state of the machine: all the spec gives the block (10_state.md rules R15 to R24) and, beside it, the
model's own fields for what is outside the block: the number format, the host's actions still to come, and the responses
given. INVENTORY.md lists every one under '## State'. -/

namespace Sys2Proof.Machine

/-- `PHASE`, the session phase (R17). Its three codes are in Machine/Flags.lean; code 3 never occurs. -/
inductive Phase where
  | empty
  | ready
  | failed
deriving DecidableEq, Repr

/-- The names of the 18 coefficient registers (R15). They have no numbers and no aliases. -/
inductive CalReg where
  | T1 | T2 | T3
  | P1 | P2 | P3 | P4 | P5 | P6 | P7 | P8 | P9
  | H1 | H2 | H3 | H4 | H5 | H6
deriving DecidableEq, Repr

/-- The 18 coefficient registers, each at its width (R15). Which are signed is in `Coefs.int` (Machine/Operands.lean). -/
structure Coefs where
  T1 : BitVec 16
  T2 : BitVec 16
  T3 : BitVec 16
  P1 : BitVec 16
  P2 : BitVec 16
  P3 : BitVec 16
  P4 : BitVec 16
  P5 : BitVec 16
  P6 : BitVec 16
  P7 : BitVec 16
  P8 : BitVec 16
  P9 : BitVec 16
  H1 : BitVec 8
  H2 : BitVec 16
  H3 : BitVec 8
  H4 : BitVec 12
  H5 : BitVec 12
  H6 : BitVec 8
deriving DecidableEq, Repr

/-- The faults a response can report (R76). Their codes are in Machine/Flags.lean. -/
inductive FaultCode where
  | malformedCalibrationData
  | noCalibration
  | storeLocked
  | sessionFailed
  | reservedCommand
deriving DecidableEq, Repr

/-- The payload of an `OK` response, one form per command (R37). -/
inductive Payload where
  /-- CALDEC: the 18 coefficients. -/
  | coefficients (c : Coefs)
  /-- UNPACK: the raw sample. -/
  | sample (rawP rawT : BitVec 20) (rawH : BitVec 16)
  /-- TEMP: degrees Celsius, and the intermediate `fine`. -/
  | temperature (celsius : Number) (fine : BitVec 32)
  /-- PRESS: Pascals. -/
  | pressure (pascals : Number)
  /-- HUM: relative humidity in percent. -/
  | humidity (percent : Number)
deriving DecidableEq, Repr

/-- A response `(status, info, payload)` (R37). The payload is absent exactly on a fault. -/
structure Response where
  status : BitVec 8
  info : BitVec 8
  payload : Option Payload
deriving DecidableEq, Repr

/-- What the host can do to the block (R7, R106). A command comes in the abstract form of R37 (`command`, or
`reservedCode` for a command whose code is reserved, which has no operands of its own) or as the bytes of a frame (R44). -/
inductive HostAction where
  | command (i : Instr)
  | reservedCode (code : Byte)
  | frame (bytes : List Byte)
  | reset
deriving DecidableEq, Repr

/-- The state of the machine. -/
structure State where
  /-- `PHASE` (R17). -/
  phase : Phase
  /-- `ERR` (R18): the code of the fault that failed the session, 0 when `PHASE` is not `FAILED`. -/
  err : BitVec 8
  /-- The coefficient registers T1 .. H6 (R15). `none` says that they hold no value, the spec's own state of them while
  `PHASE` is `EMPTY` or `FAILED` (R16, R24; 93_implementation_defined.md U5). Log entry 4. -/
  cal : Option Coefs
  /-- The model's own: the parameter `FMT` (R8). No step changes it. Log entry 1. -/
  fmt : Fmt
  /-- The model's own: the actions the host has still to take, the next one first. Log entry 2. -/
  host : List HostAction
  /-- The model's own: the responses given so far, the oldest first (R107). Log entry 3. -/
  responses : List Response
deriving DecidableEq, Repr

/-- Why the machine stops with a fault. The block's own faults are responses (R76, R86), not stops. -/
inductive Fault where
  /-- Raised by TEMP, PRESS and HUM in a state with `PHASE = READY` whose coefficient registers hold no value. R17 says
  that in `READY` they hold a decoded set, and no step of the machine leaves that (`SessionInv` in Safety.lean), so no run
  from reset reaches such a state. SAFE: the machine stops where the hardware cannot be. Log entry 5. -/
  | readyWithoutCoefficients
deriving DecidableEq, Repr

/-- Why the machine gives something no meaning. -/
inductive Refusal where
  /-- Answered by `exec` for an instruction that has no meaning yet. No arm of this model does. SAFE. -/
  | notModelled (mnemonic : String)
  /-- Answered by `present` for an abstract command that no host can issue, because an operand is not of its type or a
  code given as reserved is not reserved (R25, R37). SAFE: the hardware is never given one. Log entry 11. -/
  | notACommand
deriving DecidableEq, Repr

/-- The machine right after reset (R24, R97): `PHASE = EMPTY`, `ERR = 0`, the coefficient registers hold no value. The
number format is the spec's default (R8); the host has no action pending and no response has been given. -/
def State.reset : State where
  phase := .empty
  err := 0
  cal := none
  fmt := Config.defaultFmt
  host := []
  responses := []

end Sys2Proof.Machine
end

