-- ==== Sys2Proof/Machine/Operands.lean ====
section
/-! DEFINITION. How operands are assembled from bytes (30_encoding.md rules R39 to R42; 40_caldec.md rules R47 to R50;
41_unpack.md rules R55, R56), the layout tables of the three blocks, and the reading `cal[X]` of a coefficient register.
The layout of the calibration blocks is the spec's decision and is held in one table (93_implementation_defined.md U12). -/

namespace Sys2Proof.Machine

/-! ### The forms of a field (R42) -/

/-- U8: the byte (R48). -/
def u8 (b : Byte) : BitVec 8 := b

/-- S8: the byte, read in two's complement (R48). The 8 bits are those of the byte; the sign is in the reading. -/
def s8 (b : Byte) : BitVec 8 := b

/-- The 16 bits of a little-endian field: `lsb = B[i]`, `msb = B[i+1]` (R27, R47). -/
def le16 {n : Nat} (buffer : Vector Byte n) (i : Nat) (h : i + 1 < n) : BitVec 16 := buffer[i + 1] ++ buffer[i]

/-- U16LE: an unsigned little-endian field (R47). -/
def u16le {n : Nat} (buffer : Vector Byte n) (i : Nat) (h : i + 1 < n) : BitVec 16 := le16 buffer i h

/-- S16LE: the same bits, read in two's complement (R47). -/
def s16le {n : Nat} (buffer : Vector Byte n) (i : Nat) (h : i + 1 < n) : BitVec 16 := le16 buffer i h

/-- S12H4: the whole byte above, the low nibble of the shared byte below (R49). -/
def s12h4 (whole shared : Byte) : BitVec 12 := whole ++ shared.extractLsb' 0 4

/-- S12H5: the whole byte above, the high nibble of the shared byte below (R50). -/
def s12h5 (whole shared : Byte) : BitVec 12 := whole ++ shared.extractLsb' 4 4

/-- U20BE4: the upper 20 bits of a 3-byte big-endian field (R55). -/
def u20be4 (b0 b1 b2 : Byte) : BitVec 20 := (b0 ++ b1 ++ b2).extractLsb' 4 20

/-- U16BE: a 2-byte big-endian field (R56). -/
def u16be (b0 b1 : Byte) : BitVec 16 := b0 ++ b1

/-! ### The layout of the calibration blocks (R39, R40): one table -/

/-- Where each field of the two blocks lies: a 16-bit field by the index of its first byte, the others by their byte's. -/
structure CalLayout where
  T1 : Fin 24
  T2 : Fin 24
  T3 : Fin 24
  P1 : Fin 24
  P2 : Fin 24
  P3 : Fin 24
  P4 : Fin 24
  P5 : Fin 24
  P6 : Fin 24
  P7 : Fin 24
  P8 : Fin 24
  P9 : Fin 24
  H1 : Fin 25
  H2 : Fin 6
  H3 : Fin 7
  /-- The whole byte of H4. -/
  H4 : Fin 7
  /-- The byte that H4 and H5 share. -/
  shared : Fin 7
  /-- The whole byte of H5. -/
  H5 : Fin 7
  H6 : Fin 7

/-- The layout of CALA (T1 .. H1, R39) and of CALB (H2 .. H6, R40). Decided by the spec, not confirmed by its source
(decisions D4 to D6; log entry 12). -/
def calLayout : CalLayout where
  T1 := 0
  T2 := 2
  T3 := 4
  P1 := 6
  P2 := 8
  P3 := 10
  P4 := 12
  P5 := 14
  P6 := 16
  P7 := 18
  P8 := 20
  P9 := 22
  H1 := 24
  H2 := 0
  H3 := 2
  H4 := 3
  shared := 4
  H5 := 5
  H6 := 6

/-! ### Reading a coefficient register -/

/-- `cal[X]`: the value of a coefficient register, signed or unsigned as R15 types it. -/
def Coefs.int (c : Coefs) : CalReg → Int
  | .T1 => c.T1.toNat
  | .T2 => c.T2.toInt
  | .T3 => c.T3.toInt
  | .P1 => c.P1.toNat
  | .P2 => c.P2.toInt
  | .P3 => c.P3.toInt
  | .P4 => c.P4.toInt
  | .P5 => c.P5.toInt
  | .P6 => c.P6.toInt
  | .P7 => c.P7.toInt
  | .P8 => c.P8.toInt
  | .P9 => c.P9.toInt
  | .H1 => c.H1.toNat
  | .H2 => c.H2.toInt
  | .H3 => c.H3.toNat
  | .H4 => c.H4.toInt
  | .H5 => c.H5.toInt
  | .H6 => c.H6.toInt

end Sys2Proof.Machine
end

