-- ==== Sys2Proof/Machine/Flags.lean ====
section
/-! DEFINITION. The control fields seen as words: the codes of `PHASE` (10_state.md rule R17), the fault codes that `ERR`
and a response's `status` hold (60_exceptions.md rule R76), and the read-only view `STATUS` (R19). The block has no other
flag, and no operation sets one as a side effect (R19). -/

namespace Sys2Proof.Machine

/-- The code of a phase (R17). Code 3 never occurs. -/
def Phase.code : Phase → BitVec 2
  | .empty => 0
  | .ready => 1
  | .failed => 2

/-- The status code of a fault (R76). -/
def FaultCode.code : FaultCode → BitVec 8
  | .malformedCalibrationData => 1
  | .noCalibration => 2
  | .storeLocked => 3
  | .sessionFailed => 4
  | .reservedCommand => 5

/-- The status of an `OK` response (R76). -/
def okCode : BitVec 8 := 0

/-- `STATUS`: bits 1..0 are `PHASE`, bits 7..2 are 0, bits 15..8 are `ERR` (R19). No command returns it. -/
def State.status (s : State) : BitVec 16 := s.err ++ (0#6 ++ s.phase.code)

end Sys2Proof.Machine
end

