-- ==== Sys2Proof/Machine/Number.lean ====
section
/-! DEFINITION. The number system `Num(FMT)` of 00_scope.md rule R11 in its three instances: `exact` (the rationals),
`binary64` and `binary32` (IEEE 754, R69 and 93_implementation_defined.md GK4, GK5). An IEEE primitive computes the exact
result as a rational and rounds it once, to nearest, ties to even. What comes from IEEE 754 itself is log entry 9. -/

namespace Sys2Proof

/-- The primitives of `Num(FMT)` (R11), and `toNum`, which names the instance in a response. -/
structure NumSys (α : Type) where
  ofInt : Int → α
  lit : Nat → α
  fadd : α → α → α
  fsub : α → α → α
  fmul : α → α → α
  fdiv : α → α → α
  fis0 : α → Bool
  fgt : α → α → Bool
  flt : α → α → Bool
  ftrunc : α → Int
  toNum : α → Number

/-! ### The exact instance -/

/-- The integer part of a rational, rounding toward zero (R11 `ftrunc`). -/
def truncRat (q : Rat) : Int := if q < 0 then -(-q).floor else q.floor

/-- The exact quotient; a free value when the divisor is zero, which R11 says is never reached. -/
def exactDiv (a b : Rat) : Rat := if b = 0 then Config.exactDivByZero a else a / b

/-- The instance `exact`: the rational numbers with the exact mathematical operations (R11). -/
def exactSys : NumSys Rat where
  ofInt i := (i : Rat)
  lit c := (c : Rat)
  fadd a b := a + b
  fsub a b := a - b
  fmul a b := a * b
  fdiv := exactDiv
  fis0 a := decide (a = 0)
  fgt a b := decide (b < a)
  flt a b := decide (a < b)
  ftrunc := truncRat
  toNum := Number.exact

/-! ### Rounding to an IEEE format -/

/-- A binary format: the widths of its exponent field and of its stored significand (GK4). -/
structure FloatFormat where
  expBits : Nat
  fracBits : Nat
deriving DecidableEq, Repr

/-- `binary64`: 11 exponent bits, 52 stored significand bits (GK4). -/
def FloatFormat.binary64 : FloatFormat := ⟨11, 52⟩

/-- `binary32`: 8 exponent bits, 23 stored significand bits (GK4). -/
def FloatFormat.binary32 : FloatFormat := ⟨8, 23⟩

/-- The exponent of the smallest positive normal number: -1022 and -126 (GK4). -/
def FloatFormat.eMin (f : FloatFormat) : Int := 2 - 2 ^ (f.expBits - 1)

/-- Every finite value is below 2 to this power: 1024 and 128 (GK4). -/
def FloatFormat.eTop (f : FloatFormat) : Int := 2 ^ (f.expBits - 1)

/-- 2 to an integer power, as a rational. -/
def pow2 (k : Int) : Rat := if 0 ≤ k then ((2 ^ k.toNat : Nat) : Rat) else 1 / ((2 ^ (-k).toNat : Nat) : Rat)

/-- The exponent `e` of a positive rational: `2^e ≤ a < 2^(e+1)`. -/
def exponentOf (a : Rat) : Int :=
  let l : Int := (a.num.toNat.log2 : Int) - (a.den.log2 : Int)
  if pow2 l ≤ a then l else l - 1

/-- A non-negative rational rounded to an integer: to the nearest one, and of two equally near to the even one (GK4). -/
def roundHalfEven (x : Rat) : Nat :=
  let q := x.num.toNat / x.den
  let r := x.num.toNat % x.den
  if 2 * r < x.den then q
  else if x.den < 2 * r then q + 1
  else if q % 2 = 0 then q else q + 1

/-- The exponent of the last significand bit that the format gives a positive rational: `fracBits` below its exponent, and
never below that of the subnormal numbers (gradual underflow, GK5). -/
def FloatFormat.ulpExp (f : FloatFormat) (a : Rat) : Int := max (exponentOf a) f.eMin - f.fracBits

/-- A non-negative rational rounded to the significand width of the format, the exponent unbounded above. -/
def FloatFormat.roundMag (f : FloatFormat) (a : Rat) : Rat :=
  if a = 0 then 0 else (roundHalfEven (a / pow2 (f.ulpExp a)) : Rat) * pow2 (f.ulpExp a)

/-- A sign and an exact magnitude rounded to the format: an infinity when the rounded magnitude is above every finite value
of the format (R11, GK4). -/
def FloatFormat.round (f : FloatFormat) (neg : Bool) (a : Rat) : Ieee :=
  if pow2 f.eTop ≤ f.roundMag a then .inf neg else .fin neg (f.roundMag a)

/-! ### The IEEE primitives -/

/-- The rational that a sign and a magnitude stand for. -/
def signed (neg : Bool) (mag : Rat) : Rat := if neg then -mag else mag

/-- The same value with the other sign. -/
def Ieee.negate : Ieee → Ieee
  | .nan => .nan
  | .inf s => .inf (!s)
  | .fin s x => .fin (!s) x

/-- `ofInt`: the integer, rounded (R11). Zero is +0. -/
def Ieee.ofInt (f : FloatFormat) (i : Int) : Ieee := f.round (decide (i < 0)) (i.natAbs : Rat)

/-- `fadd`: the exact sum, rounded. An exact sum that is zero is -0 only when both operands are -0. -/
def Ieee.fadd (f : FloatFormat) : Ieee → Ieee → Ieee
  | .nan, _ => .nan
  | _, .nan => .nan
  | .inf s, .inf t => if s = t then .inf s else .nan
  | .inf s, .fin _ _ => .inf s
  | .fin _ _, .inf t => .inf t
  | .fin s x, .fin t y =>
    let sum := signed s x + signed t y
    if sum = 0 then .fin (s && t) 0 else f.round (decide (sum < 0)) |sum|

/-- `fsub`: the difference `a - b` is the sum of `a` and `b` with the other sign. -/
def Ieee.fsub (f : FloatFormat) (a b : Ieee) : Ieee := Ieee.fadd f a b.negate

/-- `fmul`: the exact product, rounded; its sign is the exclusive or of the signs. -/
def Ieee.fmul (f : FloatFormat) : Ieee → Ieee → Ieee
  | .nan, _ => .nan
  | _, .nan => .nan
  | .inf s, .inf t => .inf (s != t)
  | .inf s, .fin t y => if y = 0 then .nan else .inf (s != t)
  | .fin s x, .inf t => if x = 0 then .nan else .inf (s != t)
  | .fin s x, .fin t y => f.round (s != t) (x * y)

/-- `fdiv`: the exact quotient, rounded; a nonzero number by zero is an infinity and 0/0 a NaN (GK4). -/
def Ieee.fdiv (f : FloatFormat) : Ieee → Ieee → Ieee
  | .nan, _ => .nan
  | _, .nan => .nan
  | .inf _, .inf _ => .nan
  | .inf s, .fin t _ => .inf (s != t)
  | .fin s _, .inf t => .fin (s != t) 0
  | .fin s x, .fin t y =>
    if y = 0 then (if x = 0 then .nan else .inf (s != t)) else f.round (s != t) (x / y)

/-- `fis0`: true for +0 and -0 (R11). -/
def Ieee.isZero : Ieee → Bool
  | .nan => false
  | .inf _ => false
  | .fin _ x => decide (x = 0)

/-- `flt`: the IEEE comparison `a < b`, false when either operand is a NaN (R11). -/
def Ieee.lt : Ieee → Ieee → Bool
  | .nan, _ => false
  | _, .nan => false
  | .inf s, .inf t => s && !t
  | .inf s, .fin _ _ => s
  | .fin _ _, .inf t => !t
  | .fin s x, .fin t y => decide (signed s x < signed t y)

/-- `ftrunc`: the integer part, rounding toward zero; of a value that is not finite, a free value (R11). -/
def Ieee.trunc : Ieee → Int
  | .nan => Config.truncNonFinite .nan
  | .inf s => Config.truncNonFinite (.inf s)
  | .fin s x => truncRat (signed s x)

/-- The instances `binary64` and `binary32` (R11). A literal enters as the number it is (`lit`, exact for every literal of
the formulas: R12). -/
def ieeeSys (f : FloatFormat) (toNum : Ieee → Number) : NumSys Ieee where
  ofInt := Ieee.ofInt f
  lit c := Ieee.ofInt f (c : Int)
  fadd := Ieee.fadd f
  fsub := Ieee.fsub f
  fmul := Ieee.fmul f
  fdiv := Ieee.fdiv f
  fis0 := Ieee.isZero
  fgt a b := Ieee.lt b a
  flt := Ieee.lt
  ftrunc := Ieee.trunc
  toNum := toNum

/-- A computation over `Num(FMT)` carried out in the instance that `FMT` names (R8, R11). -/
def withFormat {β : Type} (fmt : Fmt) (k : (α : Type) → NumSys α → β) : β :=
  match fmt with
  | .exact => k Rat exactSys
  | .binary64 => k Ieee (ieeeSys FloatFormat.binary64 Number.binary64)
  | .binary32 => k Ieee (ieeeSys FloatFormat.binary32 Number.binary32)

/-! ### Reading a number -/

/-- The rational that a finite value is; `none` for an infinity or a NaN. Both zeros are 0. -/
def Ieee.value : Ieee → Option Rat
  | .nan => none
  | .inf _ => none
  | .fin s x => some (signed s x)

/-- The rational that a number of a response is, if it is finite. -/
def Number.value : Number → Option Rat
  | .exact q => some q
  | .binary64 x => x.value
  | .binary32 x => x.value

/-- The bit pattern of a value of the format, as a number: sign, exponent field, stored significand (GK4). A NaN has none,
because R69 defines no payload. -/
def Ieee.bits (f : FloatFormat) : Ieee → Option Nat
  | .nan => none
  | .inf s => some (s.toNat * 2 ^ (f.expBits + f.fracBits) + (2 ^ f.expBits - 1) * 2 ^ f.fracBits)
  | .fin s x =>
    if x = 0 then some (s.toNat * 2 ^ (f.expBits + f.fracBits))
    else
      some (s.toNat * 2 ^ (f.expBits + f.fracBits) + (f.ulpExp x + f.fracBits - f.eMin).toNat * 2 ^ f.fracBits
        + (x / pow2 (f.ulpExp x)).num.toNat)

/-- The bit pattern of a number of a response; `none` in the instance `exact`, which has no format. -/
def Number.bits : Number → Option Nat
  | .exact _ => none
  | .binary64 x => x.bits FloatFormat.binary64
  | .binary32 x => x.bits FloatFormat.binary32

end Sys2Proof
end

