-- ==== Sys2Proof/Machine/Ops.lean ====
section
/-! DEFINITION. The operations the meanings share: the named updates of the state, giving an `OK` response, raising a fault
(60_exceptions.md rule R86), the admission of a compensation command (42_compensation.md rule R59), and reset
(70_reset_and_hazards.md rule R97). There is no return from a fault: `FAILED` is left only by reset (R87). -/

namespace Sys2Proof.Machine

/-! ### Named updates -/

/-- The state with one more response given. -/
def State.answer (s : State) (r : Response) : State := { s with responses := s.responses ++ [r] }

/-- `ERR <- code; PHASE <- FAILED` (R86). In `FAILED` the coefficient registers hold no value (R16; log entry 4). -/
def State.fail (s : State) (code : BitVec 8) : State := { s with phase := .failed, err := code, cal := none }

/-- All 18 coefficient registers written in one step, and `PHASE <- READY` (R51). -/
def State.loadCal (s : State) (c : Coefs) : State := { s with phase := .ready, cal := some c }

/-- `PHASE <- EMPTY; ERR <- 0`, the coefficient registers hold no value (R97). What is outside the block stays. -/
def State.restart (s : State) : State := { s with phase := .empty, err := 0, cal := none }

/-- The state with these actions of the host still to come. -/
def State.withHost (s : State) (actions : List HostAction) : State := { s with host := actions }

/-! ### Ending a command -/

/-- `respond OK(payload)`: status 0, info 0, the payload (R37). -/
def respond (p : Payload) (s : State) : Host.Outcome State Fault Refusal :=
  .next (s.answer ⟨okCode, 0, some p⟩)

/-- `raise F(info)` (R86): unless the session has already failed, `ERR` takes the fault's code and `PHASE` becomes `FAILED`;
then the response has the fault's code, `info`, and no payload. No handler, no vector, no saved state. -/
def raise (f : FaultCode) (info : BitVec 8) (s : State) : Host.Outcome State Fault Refusal :=
  let s1 := if s.phase = .failed then s else s.fail f.code
  .next (s1.answer ⟨f.code, info, none⟩)

/-- `raise SessionFailed(ERR)` (R80). -/
def raiseSessionFailed (s : State) : Host.Outcome State Fault Refusal := raise .sessionFailed s.err s

/-- The answer to a command whose code is reserved or to a frame that spells no command (R81, checks 1 and 2 of R84). -/
def rejectCommand (code : Byte) (s : State) : Host.Outcome State Fault Refusal :=
  match s.phase with
  | .failed => raiseSessionFailed s
  | .empty => raise .reservedCommand code s
  | .ready => raise .reservedCommand code s

/-- Admission of TEMP, PRESS and HUM (R59): the two checks, then the command with the coefficient registers. -/
def admission (k : Coefs → State → Host.Outcome State Fault Refusal) (s : State) : Host.Outcome State Fault Refusal :=
  match s.phase with
  | .failed => raiseSessionFailed s
  | .empty => raise .noCalibration 0 s
  | .ready =>
    match s.cal with
    | some c => k c s
    | none => .fault .readyWithoutCoefficients

end Sys2Proof.Machine
end

