-- ==== Sys2Proof/Machine/Calibration.lean ====
section
/-! DEFINITION. CALDEC, the calibration decoder (40_caldec.md). -/

namespace Sys2Proof.Machine

/-- `decode(CALA, CALB)`: the 18 coefficients of two blocks of the right lengths (R51, R52), by the layout table. -/
def decodeCal (a : BlockA) (b : BlockB) : Coefs where
  T1 := u16le a calLayout.T1 (by omega)
  T2 := s16le a calLayout.T2 (by omega)
  T3 := s16le a calLayout.T3 (by omega)
  P1 := u16le a calLayout.P1 (by omega)
  P2 := s16le a calLayout.P2 (by omega)
  P3 := s16le a calLayout.P3 (by omega)
  P4 := s16le a calLayout.P4 (by omega)
  P5 := s16le a calLayout.P5 (by omega)
  P6 := s16le a calLayout.P6 (by omega)
  P7 := s16le a calLayout.P7 (by omega)
  P8 := s16le a calLayout.P8 (by omega)
  P9 := s16le a calLayout.P9 (by omega)
  H1 := u8 a[calLayout.H1]
  H2 := s16le b calLayout.H2 (by omega)
  H3 := u8 b[calLayout.H3]
  H4 := s12h4 b[calLayout.H4] b[calLayout.shared]
  H5 := s12h5 b[calLayout.H5] b[calLayout.shared]
  H6 := s8 b[calLayout.H6]

/-- The low byte of a 16-bit field. -/
def lowByte (w : BitVec 16) : Byte := w.extractLsb' 0 8

/-- The high byte of a 16-bit field. -/
def highByte (w : BitVec 16) : Byte := w.extractLsb' 8 8

/-- The block A of a coefficient set: the inverse of the decoding (R52). -/
def encodeCalA (c : Coefs) : BlockA :=
  #v[lowByte c.T1, highByte c.T1, lowByte c.T2, highByte c.T2, lowByte c.T3, highByte c.T3,
     lowByte c.P1, highByte c.P1, lowByte c.P2, highByte c.P2, lowByte c.P3, highByte c.P3,
     lowByte c.P4, highByte c.P4, lowByte c.P5, highByte c.P5, lowByte c.P6, highByte c.P6,
     lowByte c.P7, highByte c.P7, lowByte c.P8, highByte c.P8, lowByte c.P9, highByte c.P9,
     c.H1]

/-- The block B of a coefficient set: the inverse of the decoding (R52). -/
def encodeCalB (c : Coefs) : BlockB :=
  #v[lowByte c.H2, highByte c.H2, c.H3,
     c.H4.extractLsb' 4 8, c.H5.extractLsb' 0 4 ++ c.H4.extractLsb' 0 4, c.H5.extractLsb' 4 8,
     c.H6]

/-- A byte list as a block of the length it has. -/
def blockOf (n : Nat) (bytes : List Byte) (h : bytes.length = n) : Vector Byte n := ⟨bytes.toArray, by simpa using h⟩

/-- CALDEC (R51). The checks in the order of R84; then all 18 registers are written, `PHASE` becomes `READY`, and the
response carries the set. -/
def execCaldec (cala calb : List Byte) (s : State) : Host.Outcome State Fault Refusal :=
  match s.phase with
  | .failed => raiseSessionFailed s
  | .ready => raise .storeLocked 0 s
  | .empty =>
    if h : cala.length = Config.lenA ∧ calb.length = Config.lenB then
      let c := decodeCal (blockOf Config.lenA cala h.1) (blockOf Config.lenB calb h.2)
      respond (.coefficients c) (s.loadCal c)
    else raise .malformedCalibrationData 0 s

end Sys2Proof.Machine
end

