-- ==== Sys2Proof/Machine/Compensation.lean ====
section
/-! DEFINITION. TEMP, PRESS and HUM, the compensation pipeline (42_compensation.md). Each formula is the spec's list of
primitive operations, in its order and under its names, over any instance of `Num(FMT)`; the lists fix the floating-point
result bit for bit (decision D8). -/

namespace Sys2Proof.Machine

variable {α : Type}

/-! ### Temperature -/

/-- `t10`, the sum `v1 + v2` of the temperature formula (R60). -/
def tempSum (N : NumSys α) (c : Coefs) (rawT : BitVec 20) : α :=
  let t1 := N.fdiv (N.ofInt rawT.toNat) (N.lit 16384)
  let t2 := N.fdiv (N.ofInt (c.int .T1)) (N.lit 1024)
  let t3 := N.fsub t1 t2
  let t4 := N.fmul t3 (N.ofInt (c.int .T2))
  let t5 := N.fdiv (N.ofInt rawT.toNat) (N.lit 131072)
  let t6 := N.fdiv (N.ofInt (c.int .T1)) (N.lit 8192)
  let t7 := N.fsub t5 t6
  let t8 := N.fmul t7 t7
  let t9 := N.fmul t8 (N.ofInt (c.int .T3))
  N.fadd t4 t9

/-- `celsius` from `t10`, the unrounded sum and not `fine` (R60). -/
def tempCelsius (N : NumSys α) (t10 : α) : α := N.fdiv t10 (N.lit 5120)

/-- `fine` from `t10`: truncation toward zero, as a 32-bit two's complement integer (R60, R63; log entry 13). -/
def tempFine (N : NumSys α) (t10 : α) : BitVec 32 := BitVec.ofInt 32 (N.ftrunc t10)

/-- The payload of TEMP (R60). -/
def tempPayload (N : NumSys α) (c : Coefs) (rawT : BitVec 20) : Payload :=
  let t10 := tempSum N c rawT
  .temperature (N.toNum (tempCelsius N t10)) (tempFine N t10)

/-- TEMP (R60). `fine` is returned, not stored. -/
def execTemp (rawT : BitVec 20) (s : State) : Host.Outcome State Fault Refusal :=
  admission (fun c s => respond (withFormat s.fmt fun _ N => tempPayload N c rawT) s) s

/-! ### Pressure -/

/-- `p2`, the first `v1` of the pressure formula: it depends on `fine` alone (R64). -/
def pressBase (N : NumSys α) (fine : BitVec 32) : α :=
  let p1 := N.fdiv (N.ofInt fine.toInt) (N.lit 2)
  N.fsub p1 (N.lit 64000)

/-- `p11`, the second `v2` of the pressure formula, from `p2` (R64). -/
def pressOffset (N : NumSys α) (c : Coefs) (p2 : α) : α :=
  let p3 := N.fmul p2 p2
  let p4 := N.fmul p3 (N.ofInt (c.int .P6))
  let p5 := N.fdiv p4 (N.lit 32768)
  let p6 := N.fmul p2 (N.ofInt (c.int .P5))
  let p7 := N.fmul p6 (N.lit 2)
  let p8 := N.fadd p5 p7
  let p9 := N.fdiv p8 (N.lit 4)
  let p10 := N.fmul (N.ofInt (c.int .P4)) (N.lit 65536)
  N.fadd p9 p10

/-- `p17`, the second `v1` of the pressure formula, from `p2` (R64). -/
def pressSlope (N : NumSys α) (c : Coefs) (p2 : α) : α :=
  let p12 := N.fmul (N.ofInt (c.int .P3)) p2
  let p13 := N.fmul p12 p2
  let p14 := N.fdiv p13 (N.lit 524288)
  let p15 := N.fmul (N.ofInt (c.int .P2)) p2
  let p16 := N.fadd p14 p15
  N.fdiv p16 (N.lit 524288)

/-- `p20`, the third `v1` of the pressure formula and its divisor, from `p2` (R64). -/
def pressDivisor (N : NumSys α) (c : Coefs) (p2 : α) : α :=
  let p17 := pressSlope N c p2
  let p18 := N.fdiv p17 (N.lit 32768)
  let p19 := N.fadd (N.lit 1) p18
  N.fmul p19 (N.ofInt (c.int .P1))

/-- `p25`, the second `p` of the pressure formula, from `p11` and `p20` (R64). -/
def pressQuotient (N : NumSys α) (rawP : BitVec 20) (p11 p20 : α) : α :=
  let p21 := N.fsub (N.lit 1048576) (N.ofInt rawP.toNat)
  let p22 := N.fdiv p11 (N.lit 4096)
  let p23 := N.fsub p21 p22
  let p24 := N.fmul p23 (N.lit 6250)
  N.fdiv p24 p20

/-- The last lines of the pressure formula, from `p25` (R64). -/
def pressCorrect (N : NumSys α) (c : Coefs) (p25 : α) : α :=
  let p26 := N.fmul (N.ofInt (c.int .P9)) p25
  let p27 := N.fmul p26 p25
  let p28 := N.fdiv p27 (N.lit 2147483648)
  let p29 := N.fmul p25 (N.ofInt (c.int .P8))
  let p30 := N.fdiv p29 (N.lit 32768)
  let p31 := N.fadd p28 p30
  let p32 := N.fadd p31 (N.ofInt (c.int .P7))
  let p33 := N.fdiv p32 (N.lit 16)
  N.fadd p25 p33

/-- `pascals` (R64). The guard (R65): a divisor that is zero gives `lit(0)` and none of the later operations is done. -/
def pressPascals (N : NumSys α) (c : Coefs) (rawP : BitVec 20) (fine : BitVec 32) : α :=
  let p2 := pressBase N fine
  let p11 := pressOffset N c p2
  let p20 := pressDivisor N c p2
  if N.fis0 p20 then N.lit 0 else pressCorrect N c (pressQuotient N rawP p11 p20)

/-- PRESS (R64). A result that is not finite is returned as it is (R71). -/
def execPress (rawP : BitVec 20) (fine : BitVec 32) (s : State) : Host.Outcome State Fault Refusal :=
  admission (fun c s => respond (.pressure (withFormat s.fmt fun _ N => N.toNum (pressPascals N c rawP fine))) s) s

/-! ### Humidity -/

/-- The clamp to [0, 100]: two strict comparisons in this order, anything else unchanged (R68). -/
def clamp (N : NumSys α) (h : α) : α :=
  if N.fgt h (N.lit 100) then N.lit 100
  else if N.flt h (N.lit 0) then N.lit 0
  else h

/-- `h6`, the left factor of the humidity formula, from `h1` (R67). -/
def humLeft (N : NumSys α) (c : Coefs) (rawH : BitVec 16) (h1 : α) : α :=
  let h2 := N.fmul (N.ofInt (c.int .H4)) (N.lit 64)
  let h3 := N.fdiv (N.ofInt (c.int .H5)) (N.lit 16384)
  let h4 := N.fmul h3 h1
  let h5 := N.fadd h2 h4
  N.fsub (N.ofInt rawH.toNat) h5

/-- `h15`, the right factor of the humidity formula, from `h1` (R67). -/
def humRight (N : NumSys α) (c : Coefs) (h1 : α) : α :=
  let h7 := N.fdiv (N.ofInt (c.int .H2)) (N.lit 65536)
  let h8 := N.fdiv (N.ofInt (c.int .H6)) (N.lit 67108864)
  let h9 := N.fmul h8 h1
  let h10 := N.fdiv (N.ofInt (c.int .H3)) (N.lit 67108864)
  let h11 := N.fmul h10 h1
  let h12 := N.fadd (N.lit 1) h11
  let h13 := N.fmul h9 h12
  let h14 := N.fadd (N.lit 1) h13
  N.fmul h7 h14

/-- `h20`, the humidity before the clamp (R67). -/
def humUnclamped (N : NumSys α) (c : Coefs) (rawH : BitVec 16) (fine : BitVec 32) : α :=
  let h1 := N.fsub (N.ofInt fine.toInt) (N.lit 76800)
  let h6 := humLeft N c rawH h1
  let h15 := humRight N c h1
  let h16 := N.fmul h6 h15
  let h17 := N.fmul (N.ofInt (c.int .H1)) h16
  let h18 := N.fdiv h17 (N.lit 524288)
  let h19 := N.fsub (N.lit 1) h18
  N.fmul h16 h19

/-- `percent` (R67, R68). -/
def humPercent (N : NumSys α) (c : Coefs) (rawH : BitVec 16) (fine : BitVec 32) : α :=
  clamp N (humUnclamped N c rawH fine)

/-- HUM (R67). -/
def execHum (rawH : BitVec 16) (fine : BitVec 32) (s : State) : Host.Outcome State Fault Refusal :=
  admission (fun c s => respond (.humidity (withFormat s.fmt fun _ N => N.toNum (humPercent N c rawH fine))) s) s

end Sys2Proof.Machine
end

