-- ==== Sys2Proof/Machine/Sample.lean ====
section
/-! DEFINITION. UNPACK, the live-sample unpacker (41_unpack.md). -/

namespace Sys2Proof.Machine

/-- The three raw values of a live-sample block, by the layout of R41 (R57). -/
def unpackSample (smp : SampleBlock) : Payload :=
  .sample (u20be4 smp[0] smp[1] smp[2]) (u20be4 smp[3] smp[4] smp[5]) (u16be smp[6] smp[7])

/-- UNPACK (R57): it reads no coefficient register and is accepted in `EMPTY` as in `READY`. -/
def execUnpack (smp : SampleBlock) (s : State) : Host.Outcome State Fault Refusal :=
  match s.phase with
  | .failed => raiseSessionFailed s
  | .empty => respond (unpackSample smp) s
  | .ready => respond (unpackSample smp) s

end Sys2Proof.Machine
end

