-- ==== Sys2Proof/Machine/Dispatch.lean ====
section
/-! DEFINITION. The dispatch: one arm per command, each one direct call of its meaning. -/

namespace Sys2Proof.Machine

def exec (i : Instr) (s : State) : Host.Outcome State Fault Refusal :=
  match i with
  | .caldec cala calb => Sys2Proof.Machine.execCaldec cala calb s
  | .unpack smp => Sys2Proof.Machine.execUnpack smp s
  | .temp rawT => Sys2Proof.Machine.execTemp rawT s
  | .press rawP fine => Sys2Proof.Machine.execPress rawP fine s
  | .hum rawH fine => Sys2Proof.Machine.execHum rawH fine s

end Sys2Proof.Machine
end

