-- ==== Sys2Proof/Machine/Port.lean ====
section
/-! DEFINITION. The port of the block: what each action of the host does (00_scope.md rule R7, 70_reset_and_hazards.md rules
R97 and R106). The operands of a command are the copy the action holds (20_memory.md rule R31). What is no action of the model is in log
entry 16. -/

namespace Sys2Proof.Machine

/-- The code byte reported for a frame that spells no command: its first byte, and a free value when it has none (R81). -/
def offendingCode (bytes : List Byte) : Byte :=
  match bytes with
  | [] => Config.emptyFrameInfo
  | code :: _ => code

/-- A frame: the command it spells, or `ReservedCommand` (R44, R81). -/
def presentFrame (bytes : List Byte) (s : State) : Host.Outcome State Fault Refusal :=
  match decode bytes with
  | .ok i => exec i s
  | .error _ => rejectCommand (offendingCode bytes) s

/-- A command in its abstract form; a term that is no command of R37 is refused by name (log entry 11). -/
def presentCommand (i : Instr) (s : State) : Host.Outcome State Fault Refusal :=
  if i.wellFormed then exec i s else .refused .notACommand

/-- A command whose code is reserved, in its abstract form (R43, R81). -/
def presentReserved (code : Byte) (s : State) : Host.Outcome State Fault Refusal :=
  match opcodeOf code with
  | none => rejectCommand code s
  | some _ => .refused .notACommand

/-- One action of the host. Reset is taken in every phase, always gives the same state of the block, and has no response
(R97, R98). -/
def present (a : HostAction) (s : State) : Host.Outcome State Fault Refusal :=
  match a with
  | .command i => presentCommand i s
  | .reservedCode code => presentReserved code s
  | .frame bytes => presentFrame bytes s
  | .reset => .next s.restart

/-- The host's next action taken; with none left the block does not move (R7, R107; log entry 10). -/
def takeNext (s : State) : Host.Outcome State Fault Refusal :=
  match s.host with
  | [] => .next s
  | a :: rest => present a (s.withHost rest)

end Sys2Proof.Machine
end

