-- ==== Sys2Proof/Machine/Step.lean ====
section
/-! DEFINITION. One step of the machine: the host's next action, taken whole (00_scope.md rule R7). The block fetches nothing
(10_state.md rule R20); what the host's test places as the next instruction is placed as the host's next action. -/

namespace Sys2Proof.Machine

/-- One step: one action of the host, one atomic transition. -/
def step (s : State) : Host.Outcome State Fault Refusal := takeNext s

/-- The state whose host will next issue the frame with these bits (log entry 14). -/
def State.withFetchWord (s : State) (nbits w : Nat) : State :=
  s.withHost (.frame (tableFrame nbits w) :: s.host)

end Sys2Proof.Machine
end

