-- ==== Sys2Proof/Machine/Cycle.lean ====
section
/-! DEFINITION. The pseudo-command CYCLE (30_encoding.md rule R46) as the host expands it, and the reading of a sample as one
function (42_compensation.md rule R73). It is no command of the block: each of its four commands is one. -/

namespace Sys2Proof.Machine

/-- CalibratedReading: degrees Celsius, Pascals, percent (R14, R74). -/
structure CalibratedReading where
  celsius : Number
  pascals : Number
  percent : Number
deriving DecidableEq, Repr

/-- The result of CYCLE: the reading, or the response at which the expansion stopped (R46). -/
inductive CycleResult where
  | reading (r : CalibratedReading)
  | stopped (r : Option Response)
deriving DecidableEq, Repr

/-- The response last given. -/
def State.lastResponse (s : State) : Option Response := s.responses.getLast?

/-- The payload of a response, if there is one. -/
def payloadOf (r : Option Response) : Option Payload := r.bind Response.payload

/-- HUM, the last command of the cycle, with the values of the earlier ones (R46). -/
def cycleHum (celsius pascals : Number) (rawH : BitVec 16) (fine : BitVec 32) (s : State) :
    Host.Outcome (State × CycleResult) Fault Refusal :=
  match exec (.hum rawH fine) s with
  | .next t =>
    match payloadOf t.lastResponse with
    | some (.humidity percent) => .next (t, .reading ⟨celsius, pascals, percent⟩)
    | _ => .next (t, .stopped t.lastResponse)
  | .fault f => .fault f
  | .refused r => .refused r

/-- PRESS, then the rest of the cycle (R46). -/
def cyclePress (celsius : Number) (rawP : BitVec 20) (rawH : BitVec 16) (fine : BitVec 32) (s : State) :
    Host.Outcome (State × CycleResult) Fault Refusal :=
  match exec (.press rawP fine) s with
  | .next t =>
    match payloadOf t.lastResponse with
    | some (.pressure pascals) => cycleHum celsius pascals rawH fine t
    | _ => .next (t, .stopped t.lastResponse)
  | .fault f => .fault f
  | .refused r => .refused r

/-- TEMP, then the rest of the cycle with the `fine` it returned (R46). -/
def cycleTemp (rawP rawT : BitVec 20) (rawH : BitVec 16) (s : State) :
    Host.Outcome (State × CycleResult) Fault Refusal :=
  match exec (.temp rawT) s with
  | .next t =>
    match payloadOf t.lastResponse with
    | some (.temperature celsius fine) => cyclePress celsius rawP rawH fine t
    | _ => .next (t, .stopped t.lastResponse)
  | .fault f => .fault f
  | .refused r => .refused r

/-- `CYCLE S`: UNPACK, TEMP, PRESS, HUM with the values threaded; a fault stops the expansion and is its result (R46). -/
def cycle (smp : SampleBlock) (s : State) : Host.Outcome (State × CycleResult) Fault Refusal :=
  match exec (.unpack smp) s with
  | .next t =>
    match payloadOf t.lastResponse with
    | some (.sample rawP rawT rawH) => cycleTemp rawP rawT rawH t
    | _ => .next (t, .stopped t.lastResponse)
  | .fault f => .fault f
  | .refused r => .refused r

end Sys2Proof.Machine
end

