-- ==== Sys2Proof/Safety.lean ====
section
/-! DEFINITION. What counts as a safe run, in the terms claims use: when a response is a fault
(a run with one has gone wrong: 70_reset_and_hazards.md rule R107), and the invariants of the session. -/

namespace Sys2Proof

/-- `q` is the magnitude of a finite value of the format: an integer of at most `fracBits + 1` bits times a power of two not
below the subnormal unit, and below the overflow bound (GK4). -/
def FloatFormat.Representable (f : FloatFormat) (q : Rat) : Prop :=
  q < pow2 f.eTop ∧
  ∃ (m : Nat) (e : Int), m < 2 ^ (f.fracBits + 1) ∧ f.eMin - f.fracBits ≤ e ∧ q = (m : Rat) * pow2 e

/-- The overflow bound: a magnitude at least this rounds to an infinity (GK4: 2^1024 - 2^970 and 2^128 - 2^103). -/
def FloatFormat.overflow (f : FloatFormat) : Rat := pow2 f.eTop - pow2 (f.eTop - f.fracBits - 2)

/-- `x` is the exact result `q` rounded to nearest, ties to even (R11, GK4): an infinity of the sign of `q` when `|q|` reaches
the overflow bound; else a finite value of the format than which none is nearer, of the sign of `q` unless it is a zero, and
when it is half a unit of `q`'s last place away, an even multiple of that unit. -/
def FloatFormat.Rounds (f : FloatFormat) (q : Rat) : Ieee → Prop
  | .nan => False
  | .inf s => f.overflow ≤ |q| ∧ s = decide (q < 0)
  | .fin s m =>
    |q| < f.overflow ∧ f.Representable m ∧ (q ≠ 0 → s = decide (q < 0)) ∧
    (∀ w, f.Representable w → abs (|q| - m) ≤ abs (|q| - w)) ∧
    (q ≠ 0 → abs (|q| - m) = pow2 (f.ulpExp |q|) / 2 → ∃ n : Nat, m = ((2 * n : Nat) : Rat) * pow2 (f.ulpExp |q|))

/-- An IEEE value of the format (R11): a NaN, an infinity, or a finite value whose magnitude the format has. -/
def Ieee.InFormat (f : FloatFormat) : Ieee → Prop
  | .nan => True
  | .inf _ => True
  | .fin _ q => f.Representable q

/-- A number of `Num(FMT)` (R11): it carries the instance's name and is one of its values. -/
def Number.InFormat : Fmt → Number → Prop
  | .exact, .exact _ => True
  | .binary64, .binary64 x => Ieee.InFormat FloatFormat.binary64 x
  | .binary32, .binary32 x => Ieee.InFormat FloatFormat.binary32 x
  | _, _ => False

end Sys2Proof

namespace Sys2Proof.Machine

/-- A 16-bit field as an unsigned integer: `(msb << 8) | lsb`, on mathematical integers (R9, R47). -/
def unsigned16 (lsb msb : Byte) : Int := 256 * msb.toNat + lsb.toNat

/-- A 16-bit field as a signed integer: "if result > 32767, subtract 65536" (R47). -/
def signed16 (lsb msb : Byte) : Int :=
  if unsigned16 lsb msb > 32767 then unsigned16 lsb msb - 65536 else unsigned16 lsb msb

/-- A byte as a signed integer: "if byte > 127, subtract 256; else identity" (R48). -/
def signed8 (b : Byte) : Int := if b.toNat > 127 then (b.toNat : Int) - 256 else b.toNat

/-- The response reports a fault: its status is not `OK` (R37, R76). -/
abbrev Response.IsFault (r : Response) : Prop := r.status ≠ 0

/-- The response is of one of the two forms of R37: `OK` with `info` 0 and a payload, or a fault without one. -/
abbrev Response.WellFormed (r : Response) : Prop :=
  (r.status = 0 ∧ r.info = 0 ∧ r.payload.isSome = true) ∨ (r.status ≠ 0 ∧ r.payload.isSome = false)

/-- The session invariant (R16, R17, R18): the coefficient registers hold a value exactly in `READY`; `ERR` is 0 outside
`FAILED` and holds there the code of a fault that can fail a session, which `SessionFailed` (4) never is (R86). -/
abbrev SessionInv (s : State) : Prop :=
  (s.cal.isSome = true ↔ s.phase = .ready) ∧
  (s.phase ≠ .failed → s.err = 0) ∧
  (s.phase = .failed → s.err = 1 ∨ s.err = 2 ∨ s.err = 3 ∨ s.err = 5)

/-- The numbers of a payload are values of `Num(FMT)` (R37). -/
def Payload.InFormat (fmt : Fmt) : Payload → Prop
  | .coefficients _ => True
  | .sample _ _ _ => True
  | .temperature celsius _ => Number.InFormat fmt celsius
  | .pressure pascals => Number.InFormat fmt pascals
  | .humidity percent => Number.InFormat fmt percent

/-- Every response given so far is well-formed and its numbers are values of `Num(FMT)` (R11, R37). -/
def ResponsesInv (s : State) : Prop :=
  ∀ r ∈ s.responses, r.WellFormed ∧ ∀ p, r.payload = some p → p.InFormat s.fmt

end Sys2Proof.Machine
end

