-- ==== Sys2Proof/Certificates/Slice0/Obligations.lean ====
section
/-! DEFINITION. The statements for the provers. Each says which rule of spec/ it formalises; OBLIGATIONS.json lists them. -/

open Sys2Proof Sys2Proof.Machine

/-! ### Reset -/

/-- R24: every piece of state the spec gives the block, right after reset. -/
def Obligations.ResetLeavesAnEmptySession : Prop :=
  State.reset.phase = .empty ∧ State.reset.err = 0 ∧ State.reset.status = 0x0000 ∧ State.reset.cal = none

/-- R97, R98: reset is taken in every phase and gives the same state of the block; it has no response. What is outside the
block (the number format, the host's later actions, the responses given) stays: log entry 15. -/
def Obligations.ResetStartsANewSession : Prop :=
  ∀ (s : State) (rest : List HostAction), s.host = .reset :: rest →
    step s = .next { phase := .empty, err := 0, cal := none, fmt := s.fmt, host := rest, responses := s.responses }

/-! ### The port and the frame -/

/-- R7, R29, R44: a step takes the host's next action whole, and a frame that spells a command runs exactly that command. -/
def Obligations.StepRunsTheIssuedCommand : Prop :=
  ∀ (s : State) (rest : List HostAction) (i : Instr),
    (∀ bytes, s.host = .frame bytes :: rest → decode bytes = .ok i → step s = exec i { s with host := rest }) ∧
    (s.host = .command i :: rest → i.WellFormed → step s = exec i { s with host := rest })

/-- R81, R84 (checks 1 and 2), R86: a frame that spells no command, or a command with a reserved code, fails the session with
`ReservedCommand` and its code byte; in a failed session it is answered `SessionFailed`. -/
def Obligations.NoCommandIsAnsweredReservedCommand : Prop :=
  ∀ (s : State) (rest : List HostAction) (code : Byte),
    ((∃ operands e, s.host = .frame (code :: operands) :: rest ∧ decode (code :: operands) = .error e) ∨
      (s.host = .reservedCode code :: rest ∧ (code.toNat = 0 ∨ 6 ≤ code.toNat))) →
    (s.phase ≠ .failed → step s = .next { s with
      phase := .failed, err := 5, cal := none, host := rest, responses := s.responses ++ [⟨5, code, none⟩] }) ∧
    (s.phase = .failed → step s = .next { s with host := rest, responses := s.responses ++ [⟨4, s.err, none⟩] })

/-- The frame that holds no byte (the model's choice, log entry 6): `ReservedCommand` with some `info`, whatever it is. That the
coefficient registers hold no value in `FAILED` is R16 as log entry 4 reads it. -/
def Obligations.EmptyFrameIsAnsweredReservedCommand : Prop :=
  ∀ (s : State) (rest : List HostAction), s.host = .frame [] :: rest → s.phase ≠ .failed →
    ∃ info, step s = .next { s with
      phase := .failed, err := 5, cal := none, host := rest, responses := s.responses ++ [⟨5, info, none⟩] }

/-- R7, R107 (the model's choice, log entry 10): with no action of the host left, the block does not move. -/
def Obligations.NoActionLeavesTheStateAlone : Prop :=
  ∀ s : State, s.host = [] → step s = .next s

/-- R38, R43: a code 0x00 or 0x06 .. 0xFF is reserved, whatever follows it; the other five codes are not. -/
def Obligations.ReservedCodesAreTheOthers : Prop :=
  ∀ (code : Byte) (operands : List Byte),
    decode (code :: operands) = .error (.reservedCode code) ↔ (code.toNat = 0 ∨ 6 ≤ code.toNat)

/-- R44: the frame of each command, its numbers written byte by byte, least significant first. -/
def Obligations.FramesAreTheTableOfR44 : Prop :=
  (∀ a b : List Byte, (encode (.caldec a b)).map BitVec.toNat
    = [0x01, a.length % 256] ++ a.map BitVec.toNat ++ [b.length % 256] ++ b.map BitVec.toNat) ∧
  (∀ smp : SampleBlock, (encode (.unpack smp)).map BitVec.toNat = 0x02 :: smp.toList.map BitVec.toNat) ∧
  (∀ r : BitVec 20, (encode (.temp r)).map BitVec.toNat
    = [0x03, r.toNat % 256, r.toNat / 256 % 256, r.toNat / 65536, 0]) ∧
  (∀ (r : BitVec 20) (x : BitVec 32), (encode (.press r x)).map BitVec.toNat
    = [0x04, r.toNat % 256, r.toNat / 256 % 256, r.toNat / 65536, 0,
       x.toNat % 256, x.toNat / 256 % 256, x.toNat / 65536 % 256, x.toNat / 16777216]) ∧
  (∀ (r : BitVec 16) (x : BitVec 32), (encode (.hum r x)).map BitVec.toNat
    = [0x05, r.toNat % 256, r.toNat / 256, 0, 0,
       x.toNat % 256, x.toNat / 256 % 256, x.toNat / 65536 % 256, x.toNat / 16777216])

/-- R44: the decoder reads back every command from its frame, with every operand the encoding admits. -/
def Obligations.DecodeInvertsEncode : Prop :=
  ∀ i : Instr, i.WellFormed → decode (encode i) = .ok i

/-- R44: nothing but the frame of a command is read as that command; no bit of an accepted frame is ignored. -/
def Obligations.OnlyItsFrameSpellsACommand : Prop :=
  ∀ (bytes : List Byte) (i : Instr), decode bytes = .ok i → i.WellFormed ∧ encode i = bytes

/-- R38, R44: the frames that 95_test_vectors.md writes out in programs P1 and P5 decode to what they stand for. -/
def Obligations.FramesOfTheSpecDecode : Prop :=
  decode
      [0x01, 0x19, 0x70, 0x6B, 0x43, 0x67, 0x18, 0xFC, 0x7D, 0x8E, 0x43, 0xD6, 0xD0, 0x0B, 0x27, 0x0B, 0x8C, 0x00, 0xF9, 0xFF,
       0x8C, 0x3C, 0xF8, 0xC6, 0x70, 0x17, 0x4B, 0x07, 0x6F, 0x01, 0x00, 0x12, 0x2D, 0x03, 0x1E]
    = .ok (.caldec
      [0x70, 0x6B, 0x43, 0x67, 0x18, 0xFC, 0x7D, 0x8E, 0x43, 0xD6, 0xD0, 0x0B, 0x27, 0x0B, 0x8C, 0x00, 0xF9, 0xFF,
       0x8C, 0x3C, 0xF8, 0xC6, 0x70, 0x17, 0x4B]
      [0x6F, 0x01, 0x00, 0x12, 0x2D, 0x03, 0x1E]) ∧
  decode [0x02, 0x65, 0x5A, 0xC0, 0x7E, 0xED, 0x00, 0x75, 0x30]
    = .ok (.unpack #v[0x65, 0x5A, 0xC0, 0x7E, 0xED, 0x00, 0x75, 0x30]) ∧
  decode [0x03, 0xD0, 0xEE, 0x07, 0x00] = .ok (.temp 519888) ∧
  decode [0x04, 0xAC, 0x55, 0x06, 0x00, 0x21, 0x03, 0xFF, 0xFF] = .ok (.press 415148 (BitVec.ofInt 32 (-64735))) ∧
  decode [0x05, 0x30, 0x75, 0x00, 0x00, 0xA6, 0xF5, 0x01, 0x00] = .ok (.hum 30000 128422)

/-! ### CALDEC -/

/-- R51 with R39, R40, R42: in `EMPTY`, two blocks of the right lengths are decoded into the 18 registers in one step, `PHASE`
becomes `READY`, and the response carries the set. Each value is computed from its bytes on integers. -/
def Obligations.CaldecLoadsTheDecodedSet : Prop :=
  ∀ (a : BlockA) (b : BlockB) (s : State), s.phase = .empty →
    ∃ c : Coefs,
      exec (.caldec a.toList b.toList) s = .next { s with
        phase := .ready, cal := some c, responses := s.responses ++ [⟨0, 0, some (.coefficients c)⟩] } ∧
      c.int .T1 = unsigned16 a[0] a[1] ∧ c.int .T2 = signed16 a[2] a[3] ∧ c.int .T3 = signed16 a[4] a[5] ∧
      c.int .P1 = unsigned16 a[6] a[7] ∧ c.int .P2 = signed16 a[8] a[9] ∧ c.int .P3 = signed16 a[10] a[11] ∧
      c.int .P4 = signed16 a[12] a[13] ∧ c.int .P5 = signed16 a[14] a[15] ∧ c.int .P6 = signed16 a[16] a[17] ∧
      c.int .P7 = signed16 a[18] a[19] ∧ c.int .P8 = signed16 a[20] a[21] ∧ c.int .P9 = signed16 a[22] a[23] ∧
      c.int .H1 = a[24].toNat ∧ c.int .H2 = signed16 b[0] b[1] ∧ c.int .H3 = b[2].toNat ∧
      c.int .H4 = 16 * signed8 b[3] + (b[4].toNat % 16 : Nat) ∧
      c.int .H5 = 16 * signed8 b[5] + (b[4].toNat / 16 : Nat) ∧ c.int .H6 = signed8 b[6]

/-- R77, R79, R84, R85: where CALDEC faults, in the order of the checks, and what it leaves. -/
def Obligations.CaldecFaultsInOrder : Prop :=
  ∀ (a b : List Byte) (s : State),
    (s.phase = .failed → exec (.caldec a b) s = .next { s with responses := s.responses ++ [⟨4, s.err, none⟩] }) ∧
    (s.phase = .ready → exec (.caldec a b) s = .next { s with
      phase := .failed, err := 3, cal := none, responses := s.responses ++ [⟨3, 0, none⟩] }) ∧
    (s.phase = .empty → a.length ≠ 25 ∨ b.length ≠ 7 → exec (.caldec a b) s = .next { s with
      phase := .failed, err := 1, cal := none, responses := s.responses ++ [⟨1, 0, none⟩] })

/-- R52: `decode` is a bijection between the byte contents and the coefficient sets, with the inverse of the rule. -/
def Obligations.CalibrationDecodeIsABijection : Prop :=
  (∀ (a : BlockA) (b : BlockB), encodeCalA (decodeCal a b) = a ∧ encodeCalB (decodeCal a b) = b) ∧
  (∀ c : Coefs, decodeCal (encodeCalA c) (encodeCalB c) = c) ∧
  Function.Bijective fun blocks : BlockA × BlockB => decodeCal blocks.1 blocks.2

/-- R47, R48: the fields of one and two bytes of any buffer, unsigned, and signed by the two thresholds. -/
def Obligations.SignConversionByThreshold : Prop :=
  (∀ (n : Nat) (buffer : Vector Byte n) (i : Nat) (h : i + 1 < n),
    ((u16le buffer i h).toNat : Int) = unsigned16 buffer[i] buffer[i + 1] ∧
    (s16le buffer i h).toInt = signed16 buffer[i] buffer[i + 1]) ∧
  (∀ b : Byte, (u8 b).toNat = b.toNat ∧ (s8 b).toInt = signed8 b)

/-- R49, R50: the three lines of each packed field are equal, its range, and the nibble and byte that do not enter it. -/
def Obligations.PackedFieldsInterleaveTheSharedByte : Prop :=
  ∀ whole shared : Byte,
    (s12h4 whole shared).toInt = 16 * whole.toInt + (shared.toNat % 16 : Nat) ∧
    (s12h5 whole shared).toInt = 16 * whole.toInt + (shared.toNat / 16 : Nat) ∧
    (s12h4 whole shared).toInt = (BitVec.ofNat 12 (whole.toNat * 16 + shared.toNat % 16)).toInt ∧
    (s12h5 whole shared).toInt = (BitVec.ofNat 12 (whole.toNat * 16 + shared.toNat / 16)).toInt ∧
    (∀ other : Byte, other.toNat % 16 = shared.toNat % 16 → s12h4 whole other = s12h4 whole shared) ∧
    (∀ other : Byte, other.toNat / 16 = shared.toNat / 16 → s12h5 whole other = s12h5 whole shared)

/-! ### UNPACK -/

/-- R57 with R41, R55, R56: in `EMPTY` and in `READY`, the three raw values on integers, and nothing else changes; in `FAILED`,
`SessionFailed`. -/
def Obligations.UnpackAnswersTheRawSample : Prop :=
  ∀ (b0 b1 b2 b3 b4 b5 b6 b7 : Byte) (s : State),
    (s.phase ≠ .failed → ∃ (rawP rawT : BitVec 20) (rawH : BitVec 16),
      exec (.unpack #v[b0, b1, b2, b3, b4, b5, b6, b7]) s = .next { s with
        responses := s.responses ++ [⟨0, 0, some (.sample rawP rawT rawH)⟩] } ∧
      rawP.toNat = (b0.toNat * 65536 + b1.toNat * 256 + b2.toNat) / 16 ∧
      rawT.toNat = (b3.toNat * 65536 + b4.toNat * 256 + b5.toNat) / 16 ∧
      rawH.toNat = b6.toNat * 256 + b7.toNat) ∧
    (s.phase = .failed → exec (.unpack #v[b0, b1, b2, b3, b4, b5, b6, b7]) s = .next { s with
      responses := s.responses ++ [⟨4, s.err, none⟩] })

/-- R43 (b), R58: the two discarded nibbles do not matter, and every raw sample is the unpacking of some block. -/
def Obligations.UnpackDiscardsTwoNibblesAndIsOnto : Prop :=
  (∀ (b0 b1 b2 b3 b4 b5 b6 b7 d2 d5 : Byte), d2.toNat / 16 = b2.toNat / 16 → d5.toNat / 16 = b5.toNat / 16 →
    ∀ s : State, exec (.unpack #v[b0, b1, d2, b3, b4, d5, b6, b7]) s = exec (.unpack #v[b0, b1, b2, b3, b4, b5, b6, b7]) s) ∧
  (∀ (rawP rawT : BitVec 20) (rawH : BitVec 16), ∃ smp : SampleBlock, unpackSample smp = .sample rawP rawT rawH)

/-! ### TEMP -/

/-- R60: in `READY`, TEMP answers the value of the operation list, in the instance that `FMT` names, and changes nothing else. -/
def Obligations.TempAnswersTheOperationList : Prop :=
  ∀ (rawT : BitVec 20) (s : State) (c : Coefs), s.phase = .ready → s.cal = some c →
    exec (.temp rawT) s = .next { s with responses := s.responses ++ [⟨0, 0, some (withFormat s.fmt fun _ N =>
      let t1 := N.fdiv (N.ofInt rawT.toNat) (N.lit 16384)
      let t2 := N.fdiv (N.ofInt (c.int .T1)) (N.lit 1024)
      let t3 := N.fsub t1 t2
      let t4 := N.fmul t3 (N.ofInt (c.int .T2))
      let t5 := N.fdiv (N.ofInt rawT.toNat) (N.lit 131072)
      let t6 := N.fdiv (N.ofInt (c.int .T1)) (N.lit 8192)
      let t7 := N.fsub t5 t6
      let t8 := N.fmul t7 t7
      let t9 := N.fmul t8 (N.ofInt (c.int .T3))
      let t10 := N.fadd t4 t9
      .temperature (N.toNum (N.fdiv t10 (N.lit 5120))) (BitVec.ofInt 32 (N.ftrunc t10)))⟩] }

/-- R60, R61, R63 in the instance `exact`: the formula, its closed form in `N = raw_t - 16 * T1`, and `fine` by truncation
toward zero of the unrounded sum. -/
def Obligations.TempExactClosedForm : Prop :=
  ∀ (rawT : BitVec 20) (s : State) (c : Coefs), s.phase = .ready → s.cal = some c → s.fmt = .exact →
    let v1 : Rat := ((rawT.toNat : Rat) / 16384 - (c.int .T1 : Rat) / 1024) * (c.int .T2 : Rat)
    let v2 : Rat := ((rawT.toNat : Rat) / 131072 - (c.int .T1 : Rat) / 8192) ^ 2 * (c.int .T3 : Rat)
    let n : Rat := (rawT.toNat : Rat) - 16 * (c.int .T1 : Rat)
    v1 + v2 = (2 ^ 20 * n * (c.int .T2 : Rat) + n ^ 2 * (c.int .T3 : Rat)) / 2 ^ 34 ∧
    ∃ fine : BitVec 32,
      exec (.temp rawT) s = .next { s with
        responses := s.responses ++ [⟨0, 0, some (.temperature (.exact ((v1 + v2) / 5120)) fine)⟩] } ∧
      (0 ≤ v1 + v2 → (fine.toInt : Rat) ≤ v1 + v2 ∧ v1 + v2 < (fine.toInt : Rat) + 1) ∧
      (v1 + v2 < 0 → v1 + v2 ≤ (fine.toInt : Rat) ∧ (fine.toInt : Rat) - 1 < v1 + v2)

/-- R62: in every instance `t10` is finite, `|t10| ≤ 2^22`, and `fine` is its truncation, in -4194304 .. 4194304, so the 32-bit
field never wraps. -/
def Obligations.TempFineStaysInRange : Prop :=
  ∀ (rawT : BitVec 20) (s : State) (c : Coefs), s.phase = .ready → s.cal = some c →
    ∃ (celsius : Number) (fine : BitVec 32) (t10 : Rat),
      exec (.temp rawT) s = .next { s with
        responses := s.responses ++ [⟨0, 0, some (.temperature celsius fine)⟩] } ∧
      (withFormat s.fmt fun _ N => (N.toNum (tempSum N c rawT)).value) = some t10 ∧
      |t10| ≤ 2 ^ 22 ∧ fine.toInt = truncRat t10 ∧ -4194304 ≤ fine.toInt ∧ fine.toInt ≤ 4194304 ∧
      celsius.value.isSome = true

/-- R60, corner cases: `raw_t = 16 * T1` whatever T2 and T3 are, and T2 = T3 = 0 whatever `raw_t` is, give `fine = 0` and
`celsius = 0` in every instance. -/
def Obligations.TempIsZeroAtItsCorners : Prop :=
  ∀ (rawT : BitVec 20) (s : State) (c : Coefs), s.phase = .ready → s.cal = some c →
    ((rawT.toNat : Int) = 16 * c.int .T1 ∨ (c.int .T2 = 0 ∧ c.int .T3 = 0)) →
    ∃ celsius : Number,
      exec (.temp rawT) s = .next { s with
        responses := s.responses ++ [⟨0, 0, some (.temperature celsius 0)⟩] } ∧ celsius.value = some 0

/-! ### PRESS -/

/-- R64, R65: in `READY`, PRESS answers the value of the operation list, in the instance that `FMT` names, and changes nothing
else. The guard's `OK(lit(0))` is one of its two ends. -/
def Obligations.PressAnswersTheOperationList : Prop :=
  ∀ (rawP : BitVec 20) (fine : BitVec 32) (s : State) (c : Coefs), s.phase = .ready → s.cal = some c →
    exec (.press rawP fine) s = .next { s with responses := s.responses ++ [⟨0, 0, some (withFormat s.fmt fun _ N =>
      let p1 := N.fdiv (N.ofInt fine.toInt) (N.lit 2)
      let p2 := N.fsub p1 (N.lit 64000)
      let p3 := N.fmul p2 p2
      let p4 := N.fmul p3 (N.ofInt (c.int .P6))
      let p5 := N.fdiv p4 (N.lit 32768)
      let p6 := N.fmul p2 (N.ofInt (c.int .P5))
      let p7 := N.fmul p6 (N.lit 2)
      let p8 := N.fadd p5 p7
      let p9 := N.fdiv p8 (N.lit 4)
      let p10 := N.fmul (N.ofInt (c.int .P4)) (N.lit 65536)
      let p11 := N.fadd p9 p10
      let p12 := N.fmul (N.ofInt (c.int .P3)) p2
      let p13 := N.fmul p12 p2
      let p14 := N.fdiv p13 (N.lit 524288)
      let p15 := N.fmul (N.ofInt (c.int .P2)) p2
      let p16 := N.fadd p14 p15
      let p17 := N.fdiv p16 (N.lit 524288)
      let p18 := N.fdiv p17 (N.lit 32768)
      let p19 := N.fadd (N.lit 1) p18
      let p20 := N.fmul p19 (N.ofInt (c.int .P1))
      if N.fis0 p20 then .pressure (N.toNum (N.lit 0))
      else
        let p21 := N.fsub (N.lit 1048576) (N.ofInt rawP.toNat)
        let p22 := N.fdiv p11 (N.lit 4096)
        let p23 := N.fsub p21 p22
        let p24 := N.fmul p23 (N.lit 6250)
        let p25 := N.fdiv p24 p20
        let p26 := N.fmul (N.ofInt (c.int .P9)) p25
        let p27 := N.fmul p26 p25
        let p28 := N.fdiv p27 (N.lit 2147483648)
        let p29 := N.fmul p25 (N.ofInt (c.int .P8))
        let p30 := N.fdiv p29 (N.lit 32768)
        let p31 := N.fadd p28 p30
        let p32 := N.fadd p31 (N.ofInt (c.int .P7))
        let p33 := N.fdiv p32 (N.lit 16)
        .pressure (N.toNum (N.fadd p25 p33)))⟩] }

/-- R64, R65 in the instance `exact`: the formula as the source writes it, with its guard. -/
def Obligations.PressExactFormula : Prop :=
  ∀ (rawP : BitVec 20) (fine : BitVec 32) (s : State) (c : Coefs),
    s.phase = .ready → s.cal = some c → s.fmt = .exact →
    let x : Rat := (fine.toInt : Rat) / 2 - 64000
    let v2 : Rat := (x * x * (c.int .P6 : Rat) / 32768 + x * (c.int .P5 : Rat) * 2) / 4 + (c.int .P4 : Rat) * 65536
    let v1 : Rat :=
      (1 + ((c.int .P3 : Rat) * x * x / 524288 + (c.int .P2 : Rat) * x) / 524288 / 32768) * (c.int .P1 : Rat)
    let p : Rat := (1048576 - (rawP.toNat : Rat) - v2 / 4096) * 6250 / v1
    exec (.press rawP fine) s = .next { s with responses := s.responses ++ [⟨0, 0, some (.pressure (.exact
      (if v1 = 0 then 0
       else p + ((c.int .P9 : Rat) * p * p / 2147483648 + p * (c.int .P8 : Rat) / 32768 + (c.int .P7 : Rat)) / 16)))⟩] }

/-- R66 in the instance `exact`: when the guard fires. -/
def Obligations.PressGuardFiresExactly : Prop :=
  ∀ (c : Coefs) (fine : BitVec 32),
    let x : Rat := (fine.toInt : Rat) / 2 - 64000
    exactSys.fis0 (pressDivisor exactSys c (pressBase exactSys fine)) = true ↔
      (c.int .P1 = 0 ∨ ((c.int .P3 : Rat) * x ^ 2 / 2 ^ 19 + (c.int .P2 : Rat) * x) / 2 ^ 19 = -32768)

/-- R66 in the IEEE instances: the guard fires exactly when P1 is 0 or the rounded `p17` is -32768. -/
def Obligations.PressGuardFiresInFloatingPoint : Prop :=
  ∀ (f : FloatFormat) (toNum : Ieee → Number) (c : Coefs) (fine : BitVec 32), (f = .binary64 ∨ f = .binary32) →
    let N := ieeeSys f toNum
    N.fis0 (pressDivisor N c (pressBase N fine)) = true ↔
      (c.int .P1 = 0 ∨ (pressSlope N c (pressBase N fine)).value = some (-32768))

/-- R64 (corner case P1 = 0), R65: in every instance PRESS then answers zero, +0.0 in the IEEE instances, for every operand. -/
def Obligations.PressIsPlusZeroWhenP1IsZero : Prop :=
  ∀ (rawP : BitVec 20) (fine : BitVec 32) (s : State) (c : Coefs), s.phase = .ready → s.cal = some c → c.int .P1 = 0 →
    exec (.press rawP fine) s = .next { s with responses := s.responses ++ [⟨0, 0, some (.pressure
      (match s.fmt with
       | .exact => .exact 0
       | .binary64 => .binary64 (.fin false 0)
       | .binary32 => .binary32 (.fin false 0)))⟩] }

/-- R70, R71: in `exact` and `binary64` a pressure is finite for every operand, and in no instance is it a NaN; the response is
`OK` also when it is an infinity. -/
def Obligations.PressIsFiniteOrAnInfinityOfBinary32 : Prop :=
  ∀ (rawP : BitVec 20) (fine : BitVec 32) (s : State) (c : Coefs), s.phase = .ready → s.cal = some c →
    ∃ pascals : Number,
      exec (.press rawP fine) s = .next { s with responses := s.responses ++ [⟨0, 0, some (.pressure pascals)⟩] } ∧
      (s.fmt ≠ .binary32 → pascals.value.isSome = true) ∧ pascals ≠ .binary32 .nan

/-! ### HUM -/

/-- R67, R68: in `READY`, HUM answers the value of the operation list and the clamp, in the instance that `FMT` names, and
changes nothing else. -/
def Obligations.HumAnswersTheOperationList : Prop :=
  ∀ (rawH : BitVec 16) (fine : BitVec 32) (s : State) (c : Coefs), s.phase = .ready → s.cal = some c →
    exec (.hum rawH fine) s = .next { s with responses := s.responses ++ [⟨0, 0, some (withFormat s.fmt fun _ N =>
      let h1 := N.fsub (N.ofInt fine.toInt) (N.lit 76800)
      let h2 := N.fmul (N.ofInt (c.int .H4)) (N.lit 64)
      let h3 := N.fdiv (N.ofInt (c.int .H5)) (N.lit 16384)
      let h4 := N.fmul h3 h1
      let h5 := N.fadd h2 h4
      let h6 := N.fsub (N.ofInt rawH.toNat) h5
      let h7 := N.fdiv (N.ofInt (c.int .H2)) (N.lit 65536)
      let h8 := N.fdiv (N.ofInt (c.int .H6)) (N.lit 67108864)
      let h9 := N.fmul h8 h1
      let h10 := N.fdiv (N.ofInt (c.int .H3)) (N.lit 67108864)
      let h11 := N.fmul h10 h1
      let h12 := N.fadd (N.lit 1) h11
      let h13 := N.fmul h9 h12
      let h14 := N.fadd (N.lit 1) h13
      let h15 := N.fmul h7 h14
      let h16 := N.fmul h6 h15
      let h17 := N.fmul (N.ofInt (c.int .H1)) h16
      let h18 := N.fdiv h17 (N.lit 524288)
      let h19 := N.fsub (N.lit 1) h18
      let h20 := N.fmul h16 h19
      .humidity (N.toNum (
        if N.fgt h20 (N.lit 100) then N.lit 100 else if N.flt h20 (N.lit 0) then N.lit 0 else h20)))⟩] }

/-- R67, R68 in the instance `exact`: the formula as the source writes it, clamped to [0, 100]. -/
def Obligations.HumExactFormula : Prop :=
  ∀ (rawH : BitVec 16) (fine : BitVec 32) (s : State) (c : Coefs),
    s.phase = .ready → s.cal = some c → s.fmt = .exact →
    let x : Rat := (fine.toInt : Rat) - 76800
    let y : Rat := ((rawH.toNat : Rat) - ((c.int .H4 : Rat) * 64 + (c.int .H5 : Rat) / 16384 * x)) *
      ((c.int .H2 : Rat) / 65536 *
        (1 + (c.int .H6 : Rat) / 67108864 * x * (1 + (c.int .H3 : Rat) / 67108864 * x)))
    let h : Rat := y * (1 - (c.int .H1 : Rat) * y / 524288)
    exec (.hum rawH fine) s = .next { s with responses := s.responses ++ [⟨0, 0, some (.humidity (.exact
      (if 100 < h then 100 else if h < 0 then 0 else h)))⟩] }

/-- R68, R70: in every instance and for every operand the humidity is a finite number in [0, 100]. -/
def Obligations.HumPercentIsBetween0And100 : Prop :=
  ∀ (rawH : BitVec 16) (fine : BitVec 32) (s : State) (c : Coefs), s.phase = .ready → s.cal = some c →
    ∃ (percent : Number) (q : Rat),
      exec (.hum rawH fine) s = .next { s with responses := s.responses ++ [⟨0, 0, some (.humidity percent)⟩] } ∧
      percent.value = some q ∧ 0 ≤ q ∧ q ≤ 100

/-- R67 (corner case H2 = 0): the humidity is then numerically zero in every instance (possibly -0.0 in an IEEE one). -/
def Obligations.HumIsZeroWhenH2IsZero : Prop :=
  ∀ (rawH : BitVec 16) (fine : BitVec 32) (s : State) (c : Coefs), s.phase = .ready → s.cal = some c → c.int .H2 = 0 →
    ∃ percent : Number,
      exec (.hum rawH fine) s = .next { s with responses := s.responses ++ [⟨0, 0, some (.humidity percent)⟩] } ∧
      percent.value = some 0

/-! ### Numerics -/

/-- R11, R69: each IEEE primitive on finite operands of the format gives the exact result rounded once, to nearest, ties to
even; a quotient by zero is left aside (the block never forms one). The details of the formats are GK4's, and that a nonzero
result rounded to zero keeps its sign is the model's choice, taken from IEEE 754 (log entry 9, PRESUMED). -/
def Obligations.IeeePrimitivesRoundOnce : Prop :=
  ∀ f : FloatFormat, (f = .binary64 ∨ f = .binary32) →
    (∀ i : Int, f.Rounds i (Ieee.ofInt f i)) ∧
    (∀ (s t : Bool) (x y : Rat), f.Representable x → f.Representable y →
      f.Rounds (signed s x + signed t y) (Ieee.fadd f (.fin s x) (.fin t y)) ∧
      f.Rounds (signed s x - signed t y) (Ieee.fsub f (.fin s x) (.fin t y)) ∧
      f.Rounds (signed s x * signed t y) (Ieee.fmul f (.fin s x) (.fin t y)) ∧
      (y ≠ 0 → f.Rounds (signed s x / signed t y) (Ieee.fdiv f (.fin s x) (.fin t y))))

/-- R12: the literals of the formulas are exact in the IEEE instances, and so is every integer of at most 2^24 in magnitude
(`binary32`) and every 32-bit integer (`binary64`). -/
def Obligations.LiteralsAndOperandsAreExact : Prop :=
  (∀ n ∈ [0, 1, 2, 4, 16, 64, 100, 1024, 4096, 5120, 6250, 8192, 16384, 32768, 64000, 65536, 76800, 131072, 524288, 1048576,
      67108864, 2147483648], ∀ f : FloatFormat, (f = .binary64 ∨ f = .binary32) →
      Ieee.ofInt f (n : Nat) = .fin false (n : Nat)) ∧
  (∀ i : Int, |i| ≤ 2 ^ 24 → (Ieee.ofInt .binary32 i).value = some (i : Rat)) ∧
  (∀ i : Int, |i| ≤ 2 ^ 31 → (Ieee.ofInt .binary64 i).value = some (i : Rat))

/-! ### Faults -/

/-- R59, R78: TEMP, PRESS and HUM in `EMPTY` fault with `NoCalibration`, which fails the session. -/
def Obligations.CompensationNeedsCalibration : Prop :=
  ∀ (i : Instr) (s : State),
    ((∃ r, i = .temp r) ∨ (∃ r x, i = .press r x) ∨ (∃ r x, i = .hum r x)) → s.phase = .empty →
    exec i s = .next { s with
      phase := .failed, err := 2, cal := none, responses := s.responses ++ [⟨2, 0, none⟩] }

/-- R80: in `FAILED` every command, whatever its code and operands and in whatever form it comes, is answered
`SessionFailed(ERR)` and changes nothing. -/
def Obligations.FailedSessionAnswersEverythingAlike : Prop :=
  ∀ s : State, s.phase = .failed →
    (∀ i : Instr, exec i s = .next { s with responses := s.responses ++ [⟨4, s.err, none⟩] }) ∧
    (∀ (a : HostAction) (rest : List HostAction), s.host = a :: rest →
      ((∃ i : Instr, i.WellFormed ∧ a = .command i) ∨ (∃ bytes, a = .frame bytes) ∨
        (∃ code : Byte, (code.toNat = 0 ∨ 6 ≤ code.toNat) ∧ a = .reservedCode code)) →
      step s = .next { s with host := rest, responses := s.responses ++ [⟨4, s.err, none⟩] })

/-- R86: a response that reports a fault leaves `PHASE = FAILED`; the first fault's code is in `ERR`, a later one changes
neither; the coefficient registers hold no value then in a state that keeps the session invariant. -/
def Obligations.AFaultFailsTheSession : Prop :=
  ∀ (i : Instr) (s t : State) (r : Response), exec i s = .next t → t.responses = s.responses ++ [r] → r.status ≠ 0 →
    t.phase = .failed ∧ r.payload = none ∧ t.fmt = s.fmt ∧ t.host = s.host ∧
    (s.phase ≠ .failed → t.err = r.status ∧ t.cal = none) ∧
    (s.phase = .failed → t.err = s.err ∧ t.cal = s.cal ∧ r.status = 4 ∧ r.info = s.err)

/-! ### What every command does -/

/-- R7, R37: a command that gives a next state gives exactly one response more, of one of the two forms, and leaves alone what is
outside the block. -/
def Obligations.EveryCommandAnswersOnce : Prop :=
  ∀ (i : Instr) (s t : State), exec i s = .next t →
    ∃ r : Response, t.responses = s.responses ++ [r] ∧ r.WellFormed ∧ t.fmt = s.fmt ∧ t.host = s.host

/-- R29, R72, R82: UNPACK, TEMP, PRESS and HUM in `READY` never fault, change nothing but the responses, and answer a function of
their operands, the coefficient registers and `FMT` alone: two states that agree there get the same response. -/
def Obligations.NoHiddenCaching : Prop :=
  ∀ (i : Instr) (s1 s2 : State) (c : Coefs), (∀ a b, i ≠ .caldec a b) →
    s1.phase = .ready → s2.phase = .ready → s1.cal = some c → s2.cal = some c → s1.fmt = s2.fmt →
    ∃ p : Payload,
      exec i s1 = .next { s1 with responses := s1.responses ++ [⟨0, 0, some p⟩] } ∧
      exec i s2 = .next { s2 with responses := s2.responses ++ [⟨0, 0, some p⟩] }

/-- R23: a step's response and what it leaves of the block depend on the host's action, `PHASE`, `ERR`, the coefficient registers
and the parameter `FMT` alone: not on the responses given before, nor on the actions that come later (log entries 2 and 3 say
how the model holds these); and the response to CALDEC or UNPACK does not depend on the coefficient registers. -/
def Obligations.NoHiddenState : Prop :=
  (∀ (a : HostAction) (rest later : List HostAction) (earlier : List Response) (s t : State),
    s.host = a :: rest → step s = .next t →
    ∃ given : List Response, t.responses = s.responses ++ given ∧
      step { s with host := a :: later, responses := earlier }
        = .next { t with host := later, responses := earlier ++ given }) ∧
  (∀ (i : Instr) (s t : State) (other : Option Coefs), ((∃ a b, i = .caldec a b) ∨ (∃ smp, i = .unpack smp)) →
    exec i s = .next t → ∃ u : State, exec i { s with cal := other } = .next u ∧ u.responses = t.responses)

/-- R17: how `PHASE` can change in a step that is not a reset. -/
def Obligations.PhaseChangesOnlyAsStated : Prop :=
  ∀ s t : State, step s = .next t → s.host.head? ≠ some .reset →
    (s.phase = .failed → t.phase = .failed) ∧ (s.phase = .ready → t.phase ≠ .empty) ∧
    (s.phase = .empty → t.phase = .ready → ∃ c, t.cal = some c ∧ t.responses = s.responses ++ [⟨0, 0, some (.coefficients c)⟩])

/-- R18: `ERR` is written once, by the first fault of the session, and cleared only by reset. -/
def Obligations.ErrIsWrittenByTheFirstFault : Prop :=
  ∀ s t : State, step s = .next t → s.host.head? ≠ some .reset →
    (s.phase = .failed → t.err = s.err) ∧
    (s.phase ≠ .failed → t.phase ≠ .failed → t.err = s.err) ∧
    (s.phase ≠ .failed → t.phase = .failed → ∃ info, t.responses = s.responses ++ [⟨t.err, info, none⟩])

/-- R16, R29: within a session no step changes the coefficient registers once they hold a set: over any run without a reset. -/
def Obligations.StoreIsImmutableInASession : Prop :=
  ∀ (k : Nat) (s t : State), (∀ a ∈ s.host, a ≠ .reset) → Host.Core.run Sys2Proof.core k s = Host.Outcome.next t →
    s.phase = .ready → t.phase = .ready → t.cal = s.cal

/-- R107: over any run without a reset from a session that has not failed, the run has gone wrong (some response of it is a
fault) exactly when the final `PHASE` is `FAILED`. -/
def Obligations.RunGoesWrongExactlyWhenItFails : Prop :=
  ∀ (k : Nat) (s t : State), (∀ a ∈ s.host, a ≠ .reset) → s.phase ≠ .failed →
    Host.Core.run Sys2Proof.core k s = Host.Outcome.next t →
    ((∃ r ∈ t.responses.drop s.responses.length, r.IsFault) ↔ t.phase = .failed)

/-- R19: the fields of `STATUS`. -/
def Obligations.StatusIsTheViewOfPhaseAndErr : Prop :=
  ∀ s : State,
    s.status.extractLsb' 0 2 = s.phase.code ∧ s.status.extractLsb' 2 6 = 0 ∧ s.status.extractLsb' 8 8 = s.err ∧
    s.phase.code ≠ 3 ∧
    s.status.toNat = 256 * s.err.toNat + (match s.phase with | .empty => 0 | .ready => 1 | .failed => 2)

/-! ### The reading cycle -/

/-- R46, R73: in `READY`, CYCLE gives the reading whose values are those of the four commands with the values threaded. -/
def Obligations.CycleIsTheReadingOfTheSample : Prop :=
  ∀ (smp : SampleBlock) (s : State) (c : Coefs), s.phase = .ready → s.cal = some c →
    ∃ (rawP rawT : BitVec 20) (rawH : BitVec 16) (celsius : Number) (fine : BitVec 32) (pascals percent : Number),
      exec (.unpack smp) s = .next { s with responses := s.responses ++ [⟨0, 0, some (.sample rawP rawT rawH)⟩] } ∧
      exec (.temp rawT) s = .next { s with responses := s.responses ++ [⟨0, 0, some (.temperature celsius fine)⟩] } ∧
      exec (.press rawP fine) s = .next { s with responses := s.responses ++ [⟨0, 0, some (.pressure pascals)⟩] } ∧
      exec (.hum rawH fine) s = .next { s with responses := s.responses ++ [⟨0, 0, some (.humidity percent)⟩] } ∧
      cycle smp s = .next
        ({ s with responses := s.responses ++
            [⟨0, 0, some (.sample rawP rawT rawH)⟩, ⟨0, 0, some (.temperature celsius fine)⟩,
             ⟨0, 0, some (.pressure pascals)⟩, ⟨0, 0, some (.humidity percent)⟩] },
         .reading ⟨celsius, pascals, percent⟩)

/-- R46: a fault stops the expansion of CYCLE and is its result: `NoCalibration` from its second command in `EMPTY`,
`SessionFailed` from its first in `FAILED`. -/
def Obligations.CycleStopsAtAFault : Prop :=
  ∀ (smp : SampleBlock) (s : State),
    (s.phase = .empty → ∃ p, cycle smp s = .next
      ({ s with phase := .failed, err := 2, cal := none,
                responses := s.responses ++ [⟨0, 0, some p⟩, ⟨2, 0, none⟩] }, .stopped (some ⟨2, 0, none⟩))) ∧
    (s.phase = .failed → cycle smp s = .next
      ({ s with responses := s.responses ++ [⟨4, s.err, none⟩] }, .stopped (some ⟨4, s.err, none⟩)))

/-! ### Invariants -/

/-- R16, R17, R18: the session invariant holds after reset. -/
def Obligations.SessionInvariantAtReset : Prop := SessionInv State.reset ∧ ResponsesInv State.reset

/-- R16, R17, R18: every step keeps the session invariant: the coefficient registers hold a value exactly in `READY`, `ERR` is 0
outside `FAILED` and holds there a code that can fail a session. -/
def Obligations.StepKeepsTheSessionInvariant : Prop :=
  ∀ s t : State, SessionInv s → step s = .next t → SessionInv t

/-- R11, R37: every step keeps the responses well-formed: `OK` with `info` 0 and a payload or a fault without one, and every number
a value of `Num(FMT)`. -/
def Obligations.StepKeepsTheResponsesInFormat : Prop :=
  ∀ s t : State, ResponsesInv s → step s = .next t → ResponsesInv t

/-- R82 with the invariant of the state: the machine never stops: from a state that keeps the session invariant, with actions of
the host that are commands, every step answers a next state. -/
def Obligations.BlockNeverStops : Prop :=
  ∀ s : State, SessionInv s →
    (∀ i, .command i ∈ s.host → i.WellFormed) → (∀ code, .reservedCode code ∈ s.host → opcodeOf code = none) →
    ∃ t, step s = .next t
end

