-- ==== Sys2Proof/Laws/Rounding.lean ====
section
/-! SUPPORT. What rounding to an IEEE format does: the spec lemmas of `pow2`, `exponentOf`, `roundHalfEven`,
`FloatFormat.roundMag` and `FloatFormat.round` (Machine/Number.lean), which later proofs cite instead of unfolding them. -/

namespace Sys2Proof

/-! ### Powers of two -/

theorem pow2_eq_zpow (k : Int) : pow2 k = (2 : Rat) ^ k := by
  unfold pow2
  split
  · next h =>
    obtain ⟨n, rfl⟩ := Int.eq_ofNat_of_zero_le h
    simp
  · next h =>
    obtain ⟨n, hn⟩ := Int.eq_ofNat_of_zero_le (show (0 : Int) ≤ -k by omega)
    obtain rfl : k = -(n : Int) := by omega
    simp

theorem pow2_pos (k : Int) : 0 < pow2 k := by
  rw [pow2_eq_zpow]; positivity

theorem pow2_add (j k : Int) : pow2 (j + k) = pow2 j * pow2 k := by
  simp only [pow2_eq_zpow]; exact zpow_add₀ (by norm_num) j k

theorem pow2_le_pow2 {j k : Int} (h : j ≤ k) : pow2 j ≤ pow2 k := by
  simp only [pow2_eq_zpow]; exact zpow_le_zpow_right₀ (by norm_num) h

theorem pow2_lt_pow2 {j k : Int} (h : j < k) : pow2 j < pow2 k := by
  simp only [pow2_eq_zpow]; exact zpow_lt_zpow_right₀ (by norm_num) h

theorem lt_of_pow2_lt_pow2 {j k : Int} (h : pow2 j < pow2 k) : j < k := by
  by_contra hle
  exact absurd (pow2_le_pow2 (not_lt.mp hle)) (not_le.mpr h)

theorem pow2_ofNat (n : Nat) : pow2 (n : Int) = ((2 ^ n : Nat) : Rat) := by
  rw [pow2_eq_zpow]; simp

/-! ### The exponent of a positive rational -/

theorem exponentOf_spec {a : Rat} (ha : 0 < a) : pow2 (exponentOf a) ≤ a ∧ a < pow2 (exponentOf a + 1) := by
  have hnum : 0 < a.num := Rat.num_pos.mpr ha
  have hn0 : a.num.toNat ≠ 0 := by omega
  have hd0 : a.den ≠ 0 := a.den_nz
  have hd : (0 : Rat) < a.den := by exact_mod_cast a.den_pos
  have hval : a = (a.num.toNat : Rat) / (a.den : Rat) := by
    have h1 : ((a.num.toNat : Int) : Rat) = (a.num : Rat) := by rw [Int.toNat_of_nonneg hnum.le]
    have h2 : (a.num.toNat : Rat) = (a.num : Rat) := by exact_mod_cast h1
    rw [h2]; exact (Rat.num_div_den a).symm
  have nlo : (2 : Rat) ^ (a.num.toNat.log2 : Int) ≤ a.num.toNat := by
    rw [zpow_natCast]; exact_mod_cast Nat.log2_self_le hn0
  have nhi : (a.num.toNat : Rat) < (2 : Rat) ^ ((a.num.toNat.log2 : Int) + 1) := by
    have h : a.num.toNat < 2 ^ (a.num.toNat.log2 + 1) := Nat.lt_log2_self
    have h' : ((a.num.toNat.log2 : Int) + 1) = ((a.num.toNat.log2 + 1 : Nat) : Int) := by push_cast; ring
    rw [h', zpow_natCast]; exact_mod_cast h
  have dlo : (2 : Rat) ^ (a.den.log2 : Int) ≤ a.den := by
    rw [zpow_natCast]; exact_mod_cast Nat.log2_self_le hd0
  have dhi : (a.den : Rat) < (2 : Rat) ^ ((a.den.log2 : Int) + 1) := by
    have h : a.den < 2 ^ (a.den.log2 + 1) := Nat.lt_log2_self
    have h' : ((a.den.log2 : Int) + 1) = ((a.den.log2 + 1 : Nat) : Int) := by push_cast; ring
    rw [h', zpow_natCast]; exact_mod_cast h
  have two : (2 : Rat) ≠ 0 := by norm_num
  have hi : a < pow2 ((a.num.toNat.log2 : Int) - (a.den.log2 : Int) + 1) := by
    rw [pow2_eq_zpow]
    conv_lhs => rw [hval]
    rw [div_lt_iff₀ hd]
    calc (a.num.toNat : Rat) < (2 : Rat) ^ ((a.num.toNat.log2 : Int) + 1) := nhi
      _ = (2 : Rat) ^ ((a.num.toNat.log2 : Int) - (a.den.log2 : Int) + 1) * (2 : Rat) ^ (a.den.log2 : Int) := by
        rw [← zpow_add₀ two]; congr 1; ring
      _ ≤ _ := by gcongr
  have lo : pow2 ((a.num.toNat.log2 : Int) - (a.den.log2 : Int) - 1) ≤ a := by
    rw [pow2_eq_zpow]
    conv_rhs => rw [hval]
    rw [le_div_iff₀ hd]
    calc (2 : Rat) ^ ((a.num.toNat.log2 : Int) - (a.den.log2 : Int) - 1) * (a.den : Rat)
        ≤ (2 : Rat) ^ ((a.num.toNat.log2 : Int) - (a.den.log2 : Int) - 1) * (2 : Rat) ^ ((a.den.log2 : Int) + 1) := by gcongr
      _ = (2 : Rat) ^ (a.num.toNat.log2 : Int) := by rw [← zpow_add₀ two]; congr 1; ring
      _ ≤ _ := nlo
  unfold exponentOf
  simp only
  split
  · next h => exact ⟨h, hi⟩
  · next h => exact ⟨lo, by simpa using not_le.mp h⟩

/-- The exponent is determined by the interval it names. -/
theorem exponentOf_eq {a : Rat} {e : Int} (lo : pow2 e ≤ a) (hi : a < pow2 (e + 1)) : exponentOf a = e := by
  have ha : 0 < a := lt_of_lt_of_le (pow2_pos e) lo
  obtain ⟨l, h⟩ := exponentOf_spec ha
  have h1 : exponentOf a < e + 1 := lt_of_pow2_lt_pow2 (lt_of_le_of_lt l hi)
  have h2 : e < exponentOf a + 1 := lt_of_pow2_lt_pow2 (lt_of_le_of_lt lo h)
  omega

theorem exponentOf_mono {a b : Rat} (ha : 0 < a) (hab : a ≤ b) : exponentOf a ≤ exponentOf b := by
  have h1 := (exponentOf_spec ha).1
  have h2 := (exponentOf_spec (lt_of_lt_of_le ha hab)).2
  have := lt_of_pow2_lt_pow2 (lt_of_le_of_lt (h1.trans hab) h2)
  omega

/-! ### Rounding to an integer -/

theorem num_den_of_nonneg {x : Rat} (hx : 0 ≤ x) :
    x = ((x.num.toNat / x.den : Nat) : Rat) + ((x.num.toNat % x.den : Nat) : Rat) / (x.den : Rat) := by
  have hd : (x.den : Rat) ≠ 0 := by exact_mod_cast x.den_nz
  have hnum : 0 ≤ x.num := Rat.num_nonneg.mpr hx
  have h2 : (x.num.toNat : Rat) = (x.num : Rat) := by
    have h1 : ((x.num.toNat : Int) : Rat) = (x.num : Rat) := by rw [Int.toNat_of_nonneg hnum]
    exact_mod_cast h1
  have hdm : ((x.num.toNat / x.den : Nat) : Rat) * x.den + ((x.num.toNat % x.den : Nat) : Rat) = (x.num.toNat : Rat) := by
    have h := Nat.div_add_mod x.num.toNat x.den
    have h' : (x.den : Rat) * ((x.num.toNat / x.den : Nat) : Rat) + ((x.num.toNat % x.den : Nat) : Rat) = (x.num.toNat : Rat) := by
      exact_mod_cast h
    linarith
  field_simp
  rw [hdm, h2]
  exact Rat.mul_den_eq_num x

/-- A non-negative rational is an integer part and a remainder in [0, 1), and rounding to nearest even decides on the
remainder. -/
theorem roundHalfEven_cases {x : Rat} (hx : 0 ≤ x) :
    ∃ (q : Nat) (r : Rat), x = q + r ∧ 0 ≤ r ∧ r < 1 ∧
      ((roundHalfEven x = q ∧ (r < 1 / 2 ∨ (r = 1 / 2 ∧ q % 2 = 0))) ∨
       (roundHalfEven x = q + 1 ∧ (1 / 2 < r ∨ (r = 1 / 2 ∧ q % 2 = 1)))) := by
  have hdpos : 0 < x.den := x.den_pos
  have hd : (0 : Rat) < x.den := by exact_mod_cast hdpos
  refine ⟨x.num.toNat / x.den, ((x.num.toNat % x.den : Nat) : Rat) / (x.den : Rat), num_den_of_nonneg hx, by positivity, ?_, ?_⟩
  · rw [div_lt_one hd]; exact_mod_cast Nat.mod_lt _ hdpos
  · have half_lt : ((x.num.toNat % x.den : Nat) : Rat) / (x.den : Rat) < 1 / 2 ↔ 2 * (x.num.toNat % x.den) < x.den := by
      rw [div_lt_iff₀ hd, ← Nat.cast_lt (α := Rat)]; push_cast
      constructor <;> intro h <;> linarith
    have lt_half : 1 / 2 < ((x.num.toNat % x.den : Nat) : Rat) / (x.den : Rat) ↔ x.den < 2 * (x.num.toNat % x.den) := by
      rw [lt_div_iff₀ hd, ← Nat.cast_lt (α := Rat)]; push_cast
      constructor <;> intro h <;> linarith
    unfold roundHalfEven
    simp only
    by_cases h1 : 2 * (x.num.toNat % x.den) < x.den
    · rw [if_pos h1]; exact .inl ⟨rfl, .inl (half_lt.mpr h1)⟩
    · rw [if_neg h1]
      by_cases h2 : x.den < 2 * (x.num.toNat % x.den)
      · rw [if_pos h2]; exact .inr ⟨rfl, .inl (lt_half.mpr h2)⟩
      · rw [if_neg h2]
        have heq : ((x.num.toNat % x.den : Nat) : Rat) / (x.den : Rat) = 1 / 2 :=
          le_antisymm (not_lt.mp fun h => h2 (lt_half.mp h)) (not_lt.mp fun h => h1 (half_lt.mp h))
        by_cases h3 : x.num.toNat / x.den % 2 = 0
        · rw [if_pos h3]; exact .inl ⟨rfl, .inr ⟨heq, h3⟩⟩
        · rw [if_neg h3]; exact .inr ⟨rfl, .inr ⟨heq, by omega⟩⟩

theorem roundHalfEven_natCast (n : Nat) : roundHalfEven (n : Rat) = n := by
  simp [roundHalfEven, Nat.mod_one]

theorem roundHalfEven_near {x : Rat} (hx : 0 ≤ x) : |x - roundHalfEven x| ≤ 1 / 2 := by
  obtain ⟨q, r, rfl, hr0, hr1, ⟨h, hc⟩ | ⟨h, hc⟩⟩ := roundHalfEven_cases hx
  all_goals
    rw [h, abs_le]
    push_cast
    rcases hc with hc | ⟨hc, -⟩ <;> constructor <;> linarith

/-- No integer is nearer than the rounded one. -/
theorem roundHalfEven_nearest {x : Rat} (hx : 0 ≤ x) (n : Nat) : |x - roundHalfEven x| ≤ |x - n| := by
  obtain ⟨q, r, rfl, hr0, hr1, hcase⟩ := roundHalfEven_cases hx
  have far : r ≤ |(q : Rat) + r - n| ∧ 1 - r ≤ |(q : Rat) + r - n| ∨ n = q ∨ n = q + 1 := by
    rcases Nat.lt_trichotomy n q with h | h | h
    · left
      have h' : (n : Rat) + 1 ≤ q := by exact_mod_cast h
      rw [abs_of_nonneg (by linarith)]; constructor <;> linarith
    · exact .inr (.inl h)
    · rcases (Nat.succ_le_of_lt h).eq_or_lt with h | h
      · exact .inr (.inr h.symm)
      · left
        have h' : (q : Rat) + 1 + 1 ≤ n := by exact_mod_cast h
        rw [abs_of_neg (by linarith)]; constructor <;> linarith
  have here : |(q : Rat) + r - roundHalfEven ((q : Rat) + r)| ≤ r ∧
      |(q : Rat) + r - roundHalfEven ((q : Rat) + r)| ≤ 1 - r := by
    rcases hcase with ⟨h, hc⟩ | ⟨h, hc⟩
    · rw [h, abs_of_nonneg (by linarith)]
      rcases hc with hc | ⟨hc, -⟩ <;> constructor <;> linarith
    · rw [h]; push_cast
      rw [abs_of_neg (by linarith)]
      rcases hc with hc | ⟨hc, -⟩ <;> constructor <;> linarith
  rcases far with h | rfl | rfl
  · exact here.1.trans h.1
  · refine here.1.trans ?_
    rw [abs_of_nonneg (by linarith)]; linarith
  · refine here.2.trans ?_
    push_cast
    rw [abs_of_neg (by linarith)]; linarith

theorem roundHalfEven_mono {x y : Rat} (hx : 0 ≤ x) (hxy : x ≤ y) : roundHalfEven x ≤ roundHalfEven y := by
  by_contra hlt
  push Not at hlt
  have hy : 0 ≤ y := hx.trans hxy
  have nx := abs_le.mp (roundHalfEven_near hx)
  have ny := abs_le.mp (roundHalfEven_near hy)
  have hge : (roundHalfEven y : Rat) + 1 ≤ roundHalfEven x := by exact_mod_cast hlt
  have hyx : y = x := by linarith [nx.1, ny.2]
  rw [hyx] at hlt
  exact lt_irrefl _ hlt

theorem roundHalfEven_le_natCast {x : Rat} {n : Nat} (hx : 0 ≤ x) (h : x ≤ n) : roundHalfEven x ≤ n := by
  simpa [roundHalfEven_natCast] using roundHalfEven_mono hx h

theorem natCast_le_roundHalfEven {x : Rat} {n : Nat} (h : (n : Rat) ≤ x) : n ≤ roundHalfEven x := by
  simpa [roundHalfEven_natCast] using roundHalfEven_mono (Nat.cast_nonneg n) h

/-! ### Rounding to the significand width -/

namespace FloatFormat

variable (f : FloatFormat)

/-- `q` is a multiple of a permitted unit by a significand of the format, the exponent unbounded above. -/
def OnGrid (q : Rat) : Prop :=
  ∃ (m : Nat) (e : Int), m < 2 ^ (f.fracBits + 1) ∧ f.eMin - f.fracBits ≤ e ∧ q = (m : Rat) * pow2 e

theorem representable_iff {q : Rat} : f.Representable q ↔ q < pow2 f.eTop ∧ f.OnGrid q := Iff.rfl

theorem OnGrid.nonneg {f : FloatFormat} {q : Rat} (h : f.OnGrid q) : 0 ≤ q := by
  obtain ⟨m, e, -, -, rfl⟩ := h
  exact mul_nonneg (Nat.cast_nonneg m) (pow2_pos e).le

theorem onGrid_zero : f.OnGrid 0 := ⟨0, f.eMin, by positivity, by omega, by simp⟩

theorem onGrid_pow2 {k : Int} (hk : f.eMin - f.fracBits ≤ k) : f.OnGrid (pow2 k) :=
  ⟨1, k, Nat.one_lt_two_pow (by omega), hk, by simp⟩

theorem onGrid_natCast {n : Nat} (hn : n < 2 ^ (f.fracBits + 1)) (h0 : f.eMin ≤ f.fracBits) : f.OnGrid n :=
  ⟨n, 0, hn, by omega, by simp [pow2_eq_zpow]⟩

theorem roundMag_zero : f.roundMag 0 = 0 := by simp [roundMag]

theorem roundMag_of_pos {a : Rat} (ha : 0 < a) :
    f.roundMag a = (roundHalfEven (a / pow2 (f.ulpExp a)) : Rat) * pow2 (f.ulpExp a) := by
  rw [roundMag, if_neg ha.ne']

theorem roundMag_nonneg (a : Rat) : 0 ≤ f.roundMag a := by
  unfold roundMag
  split
  · exact le_rfl
  · exact mul_nonneg (Nat.cast_nonneg _) (pow2_pos _).le

theorem le_ulpExp (a : Rat) : f.eMin - f.fracBits ≤ f.ulpExp a := by
  unfold ulpExp; omega

theorem lt_pow2_ulpExp {a : Rat} (ha : 0 < a) : a < pow2 (f.ulpExp a + f.fracBits + 1) := by
  refine (exponentOf_spec ha).2.trans_le (pow2_le_pow2 ?_)
  unfold ulpExp; omega

theorem ulpExp_mono {a b : Rat} (ha : 0 < a) (hab : a ≤ b) : f.ulpExp a ≤ f.ulpExp b := by
  have := exponentOf_mono ha hab
  unfold ulpExp; omega

/-- The rounded significand has at most one bit more than the format's, and then it is a power of two. -/
theorem significand_le {a : Rat} (ha : 0 < a) :
    roundHalfEven (a / pow2 (f.ulpExp a)) ≤ 2 ^ (f.fracBits + 1) := by
  refine roundHalfEven_le_natCast (div_nonneg ha.le (pow2_pos _).le) ?_
  rw [div_le_iff₀ (pow2_pos _), ← pow2_ofNat, ← pow2_add]
  refine (f.lt_pow2_ulpExp ha).le.trans (pow2_le_pow2 ?_)
  push_cast; omega

theorem roundMag_onGrid (a : Rat) (ha : 0 ≤ a) : f.OnGrid (f.roundMag a) := by
  rcases ha.eq_or_lt with rfl | ha
  · rw [roundMag_zero]; exact f.onGrid_zero
  · rw [f.roundMag_of_pos ha]
    rcases (f.significand_le ha).eq_or_lt with h | h
    · rw [h, ← pow2_ofNat, ← pow2_add]
      have := f.le_ulpExp a
      exact f.onGrid_pow2 (by push_cast; omega)
    · exact ⟨_, _, h, f.le_ulpExp a, rfl⟩

/-- A positive value of the grid is a multiple of its own unit. -/
theorem onGrid_multiple {q : Rat} (h : f.OnGrid q) (hq : 0 < q) :
    ∃ n : Nat, q = (n : Rat) * pow2 (f.ulpExp q) := by
  obtain ⟨m, e, hm, he, hqe⟩ := h
  have hlt : q < pow2 (f.fracBits + 1 + e) := by
    rw [hqe, pow2_add]
    refine mul_lt_mul_of_pos_right ?_ (pow2_pos e)
    have h1 : ((f.fracBits : Int) + 1) = ((f.fracBits + 1 : Nat) : Int) := by push_cast; ring
    rw [h1, pow2_ofNat]; exact_mod_cast hm
  have hexp : exponentOf q < f.fracBits + 1 + e := lt_of_pow2_lt_pow2 ((exponentOf_spec hq).1.trans_lt hlt)
  have hu : f.ulpExp q ≤ e := by unfold ulpExp; omega
  obtain ⟨d, hd⟩ := Int.eq_ofNat_of_zero_le (show 0 ≤ e - f.ulpExp q by omega)
  refine ⟨m * 2 ^ d, ?_⟩
  rw [Nat.cast_mul, ← pow2_ofNat, mul_assoc, ← pow2_add]
  conv_lhs => rw [hqe]
  congr 2; omega

/-- A value of the grid is rounded to itself. -/
theorem roundMag_of_onGrid {q : Rat} (h : f.OnGrid q) : f.roundMag q = q := by
  rcases h.nonneg.eq_or_lt with rfl | hq
  · exact f.roundMag_zero
  · obtain ⟨n, hn⟩ := f.onGrid_multiple h hq
    have hquot : q / pow2 (f.ulpExp q) = (n : Rat) := by rwa [div_eq_iff (pow2_pos _).ne']
    rw [f.roundMag_of_pos hq, hquot, roundHalfEven_natCast, ← hn]

theorem roundMag_mono {a b : Rat} (ha : 0 ≤ a) (hab : a ≤ b) : f.roundMag a ≤ f.roundMag b := by
  rcases ha.eq_or_lt with rfl | ha
  · rw [roundMag_zero]; exact f.roundMag_nonneg b
  · have hb : 0 < b := ha.trans_le hab
    rcases (f.ulpExp_mono ha hab).eq_or_lt with h | h
    · rw [f.roundMag_of_pos ha, f.roundMag_of_pos hb, h]
      have := roundHalfEven_mono (div_nonneg ha.le (pow2_pos (f.ulpExp b)).le)
        (div_le_div_of_nonneg_right hab (pow2_pos (f.ulpExp b)).le)
      exact mul_le_mul_of_nonneg_right (by exact_mod_cast this) (pow2_pos _).le
    · have hbe : f.ulpExp b = exponentOf b - f.fracBits := by
        have := f.le_ulpExp a
        unfold ulpExp at *; omega
      calc f.roundMag a
          ≤ ((2 ^ (f.fracBits + 1) : Nat) : Rat) * pow2 (f.ulpExp a) := by
            rw [f.roundMag_of_pos ha]
            exact mul_le_mul_of_nonneg_right (by exact_mod_cast f.significand_le ha) (pow2_pos _).le
        _ ≤ pow2 (exponentOf b) := by
            rw [← pow2_ofNat, ← pow2_add]; exact pow2_le_pow2 (by push_cast; omega)
        _ ≤ f.roundMag b := by
            have h1 : ((2 ^ f.fracBits : Nat) : Rat) ≤ b / pow2 (f.ulpExp b) := by
              rw [le_div_iff₀ (pow2_pos _), ← pow2_ofNat, ← pow2_add]
              refine le_trans (pow2_le_pow2 ?_) (exponentOf_spec hb).1
              omega
            have h2 := natCast_le_roundHalfEven h1
            have h3 : pow2 (exponentOf b) = ((2 ^ f.fracBits : Nat) : Rat) * pow2 (f.ulpExp b) := by
              rw [← pow2_ofNat, ← pow2_add]; congr 1; omega
            rw [f.roundMag_of_pos hb, h3]
            exact mul_le_mul_of_nonneg_right (by exact_mod_cast h2) (pow2_pos _).le

/-- A bound that the format has is kept by rounding. -/
theorem roundMag_le_of_onGrid {a q : Rat} (ha : 0 ≤ a) (hq : f.OnGrid q) (h : a ≤ q) : f.roundMag a ≤ q := by
  simpa [f.roundMag_of_onGrid hq] using f.roundMag_mono ha h

theorem le_roundMag_of_onGrid {a q : Rat} (hq : f.OnGrid q) (h : q ≤ a) : q ≤ f.roundMag a := by
  simpa [f.roundMag_of_onGrid hq] using f.roundMag_mono hq.nonneg h

/-- Rounding moves a value by at most half of its last place. -/
theorem roundMag_near {a : Rat} (ha : 0 < a) : |a - f.roundMag a| ≤ pow2 (f.ulpExp a) / 2 := by
  have hp := pow2_pos (f.ulpExp a)
  have h := roundHalfEven_near (div_nonneg ha.le hp.le)
  have h1 : a - f.roundMag a
      = (a / pow2 (f.ulpExp a) - roundHalfEven (a / pow2 (f.ulpExp a))) * pow2 (f.ulpExp a) := by
    rw [f.roundMag_of_pos ha, sub_mul, div_mul_cancel₀ _ hp.ne']
  rw [h1, abs_mul, abs_of_pos hp]
  calc _ ≤ 1 / 2 * pow2 (f.ulpExp a) := mul_le_mul_of_nonneg_right h hp.le
    _ = _ := by ring

/-- A positive value and its unit: the power of two at its exponent, when that is not subnormal, is a multiple of the unit
below the value. -/
theorem multiple_below {a : Rat} (h : f.eMin ≤ exponentOf a) :
    ∃ n : Nat, pow2 (exponentOf a) = (n : Rat) * pow2 (f.ulpExp a) := by
  refine ⟨2 ^ f.fracBits, ?_⟩
  rw [← pow2_ofNat, ← pow2_add]; congr 1; unfold ulpExp; omega

/-- No multiple of the value's own unit is nearer than the rounded value. -/
theorem roundMag_nearest_multiple {a : Rat} (ha : 0 < a) (n : Nat) :
    |a - f.roundMag a| ≤ |a - (n : Rat) * pow2 (f.ulpExp a)| := by
  have hp := pow2_pos (f.ulpExp a)
  have h := roundHalfEven_nearest (div_nonneg ha.le hp.le) n
  have scale : ∀ k : Nat, a - (k : Rat) * pow2 (f.ulpExp a) = (a / pow2 (f.ulpExp a) - k) * pow2 (f.ulpExp a) := by
    intro k; rw [sub_mul, div_mul_cancel₀ _ hp.ne']
  rw [f.roundMag_of_pos ha, scale, scale, abs_mul, abs_mul]
  exact mul_le_mul_of_nonneg_right h (abs_nonneg _)

/-- No value of the grid is nearer than the rounded one. -/
theorem roundMag_nearest {a q : Rat} (ha : 0 ≤ a) (hq : f.OnGrid q) : |a - f.roundMag a| ≤ |a - q| := by
  rcases ha.eq_or_lt with rfl | ha
  · simp [roundMag_zero]
  rcases hq.nonneg.eq_or_lt with rfl | hqpos
  · simpa using f.roundMag_nearest_multiple ha 0
  rcases lt_or_ge (f.ulpExp q) (f.ulpExp a) with hlt | hge
  · have h1 := f.le_ulpExp q
    have hmin : f.eMin ≤ exponentOf a := by unfold ulpExp at *; omega
    have hexp : exponentOf q + 1 ≤ exponentOf a := by unfold ulpExp at *; omega
    obtain ⟨n, hn⟩ := f.multiple_below hmin
    have h2 := f.roundMag_nearest_multiple ha n
    rw [← hn] at h2
    have h3 : q ≤ pow2 (exponentOf a) := ((exponentOf_spec hqpos).2.trans_le (pow2_le_pow2 hexp)).le
    have h4 := (exponentOf_spec ha).1
    rw [abs_of_nonneg (sub_nonneg.mpr h4)] at h2
    rw [abs_of_nonneg (sub_nonneg.mpr (h3.trans h4))]
    linarith
  · obtain ⟨n, hn⟩ := f.onGrid_multiple hq hqpos
    obtain ⟨d, hd⟩ := Int.eq_ofNat_of_zero_le (show 0 ≤ f.ulpExp q - f.ulpExp a by omega)
    have h1 : q = ((n * 2 ^ d : Nat) : Rat) * pow2 (f.ulpExp a) := by
      rw [Nat.cast_mul, ← pow2_ofNat, mul_assoc, ← pow2_add]
      conv_lhs => rw [hn]
      congr 2; omega
    rw [h1]
    exact f.roundMag_nearest_multiple ha _

/-! ### Rounding to a value of the format -/

theorem round_of_lt {a : Rat} {neg : Bool} (h : f.roundMag a < pow2 f.eTop) : f.round neg a = .fin neg (f.roundMag a) := by
  rw [FloatFormat.round, if_neg (not_le.mpr h)]

/-- Below a power of two that the format has, the rounded value is finite and stays below it. -/
theorem round_of_le_pow2 {a : Rat} (neg : Bool) {k : Int} (ha : 0 ≤ a) (h : a ≤ pow2 k) (h1 : f.eMin - f.fracBits ≤ k)
    (h2 : k < f.eTop) : f.round neg a = .fin neg (f.roundMag a) ∧ 0 ≤ f.roundMag a ∧ f.roundMag a ≤ pow2 k := by
  have h3 := f.roundMag_le_of_onGrid ha (f.onGrid_pow2 h1) h
  exact ⟨f.round_of_lt (h3.trans_lt (pow2_lt_pow2 h2)), f.roundMag_nonneg a, h3⟩

theorem round_of_representable {q : Rat} (neg : Bool) (h : f.Representable q) : f.round neg q = .fin neg q := by
  have h1 := f.roundMag_of_onGrid h.2
  rw [f.round_of_lt (by rw [h1]; exact h.1), h1]

/-- A rounded value is one of the format. -/
theorem round_inFormat (neg : Bool) {a : Rat} (ha : 0 ≤ a) : Ieee.InFormat f (f.round neg a) := by
  unfold FloatFormat.round
  split
  · trivial
  · next h => exact ⟨not_le.mp h, f.roundMag_onGrid a ha⟩

end FloatFormat

end Sys2Proof
end

