-- ==== Sys2Proof/Laws/Bounds.lean ====
section
/-! SUPPORT. The IEEE primitives on bounded operands (Machine/Number.lean): each gives a finite value and a bound on its
magnitude. They are the spec lemmas from which the ranges of R62 and R70 are proved. -/

namespace Sys2Proof

/-- A format with at least the exponent range and the significand of `binary32`. -/
structure FloatFormat.AtLeast32 (f : FloatFormat) : Prop where
  eMin_le : f.eMin ≤ -126
  le_eTop : 128 ≤ f.eTop
  le_fracBits : 23 ≤ f.fracBits

theorem FloatFormat.atLeast32_binary32 : FloatFormat.AtLeast32 .binary32 := ⟨by decide, by decide, by decide⟩

theorem FloatFormat.atLeast32_binary64 : FloatFormat.AtLeast32 .binary64 := ⟨by decide, by decide, by decide⟩

theorem signed_abs_le (s : Bool) {m B : Rat} (h0 : 0 ≤ m) (h : m ≤ B) : |signed s m| ≤ B := by
  unfold signed
  split
  · rw [abs_neg, abs_of_nonneg h0]; exact h
  · rw [abs_of_nonneg h0]; exact h

theorem signed_zero (s : Bool) : signed s 0 = 0 := by cases s <;> simp [signed]

theorem signed_eq_zero {s : Bool} {m : Rat} : signed s m = 0 ↔ m = 0 := by cases s <;> simp [signed]

namespace Ieee

/-- `x` is finite, of the sign `s`, and of a magnitude at most `B`. -/
def SignedUpTo (s : Bool) (B : Rat) (x : Ieee) : Prop := ∃ m, x = .fin s m ∧ 0 ≤ m ∧ m ≤ B

/-- `x` is finite and its magnitude is at most `B`. -/
def UpTo (B : Rat) (x : Ieee) : Prop := ∃ s, SignedUpTo s B x

theorem SignedUpTo.upTo {s : Bool} {B : Rat} {x : Ieee} (h : SignedUpTo s B x) : UpTo B x := ⟨s, h⟩

theorem UpTo.mono {B C : Rat} {x : Ieee} (h : UpTo B x) (hBC : B ≤ C) : UpTo C x := by
  obtain ⟨s, m, hx, h0, hm⟩ := h
  exact ⟨s, m, hx, h0, hm.trans hBC⟩

theorem SignedUpTo.mono {s : Bool} {B C : Rat} {x : Ieee} (h : SignedUpTo s B x) (hBC : B ≤ C) : SignedUpTo s C x := by
  obtain ⟨m, hx, h0, hm⟩ := h
  exact ⟨m, hx, h0, hm.trans hBC⟩

/-- A finite value bounded by `B` is a rational between `-B` and `B`. -/
theorem UpTo.value {B : Rat} {x : Ieee} (h : UpTo B x) : ∃ q, x.value = some q ∧ |q| ≤ B := by
  obtain ⟨s, m, rfl, h0, hm⟩ := h
  exact ⟨signed s m, rfl, signed_abs_le s h0 hm⟩

theorem UpTo.negate {B : Rat} {x : Ieee} (h : UpTo B x) : UpTo B x.negate := by
  obtain ⟨s, m, rfl, h0, hm⟩ := h
  exact ⟨!s, m, rfl, h0, hm⟩

variable {f : FloatFormat}

/-- A bound below the overflow threshold that the format has is kept by rounding. -/
theorem round_upTo (neg : Bool) {a B : Rat} (ha : 0 ≤ a) (h : a ≤ B) (hB : f.Representable B) :
    SignedUpTo neg B (f.round neg a) := by
  have h1 := f.roundMag_le_of_onGrid ha hB.2 h
  exact ⟨f.roundMag a, f.round_of_lt (h1.trans_lt hB.1), f.roundMag_nonneg a, h1⟩

/-- A power of two within the range of the format is one of its values. -/
theorem representable_pow2 {k : Int} (h1 : f.eMin - f.fracBits ≤ k) (h2 : k < f.eTop) : f.Representable (pow2 k) :=
  ⟨pow2_lt_pow2 h2, f.onGrid_pow2 h1⟩

theorem ofInt_upTo {i : Int} {B : Rat} (h : |(i : Rat)| ≤ B) (hB : f.Representable B) : UpTo B (ofInt f i) := by
  refine (round_upTo _ (Nat.cast_nonneg _) ?_ hB).upTo
  rwa [Nat.cast_natAbs, Int.cast_abs]

/-- A natural number that the format has is converted to itself, with the sign `+`. -/
theorem ofInt_natCast {n : Nat} (h : f.Representable n) : ofInt f (n : Int) = .fin false n := by
  have hneg : decide ((n : Int) < 0) = false := by simp
  rw [ofInt, hneg]
  simpa using f.round_of_representable false h

/-- An integer whose magnitude the format has is converted to itself. -/
theorem ofInt_of_representable {i : Int} (h : f.Representable (i.natAbs : Rat)) :
    ofInt f i = .fin (decide (i < 0)) (i.natAbs : Rat) :=
  f.round_of_representable _ h

theorem fadd_upTo {x y : Ieee} {B C : Rat} (hx : UpTo B x) (hy : UpTo C y) {D : Rat} (hD : f.Representable D)
    (h : B + C ≤ D) : UpTo D (fadd f x y) := by
  obtain ⟨s, m, rfl, hm0, hm⟩ := hx
  obtain ⟨t, n, rfl, hn0, hn⟩ := hy
  have hsum : |signed s m + signed t n| ≤ D :=
    (abs_add_le _ _).trans ((add_le_add (signed_abs_le s hm0 hm) (signed_abs_le t hn0 hn)).trans h)
  simp only [fadd]
  split
  · exact ⟨_, 0, rfl, le_rfl, (abs_nonneg _).trans hsum⟩
  · exact (round_upTo _ (abs_nonneg _) hsum hD).upTo

theorem fsub_upTo {x y : Ieee} {B C : Rat} (hx : UpTo B x) (hy : UpTo C y) {D : Rat} (hD : f.Representable D)
    (h : B + C ≤ D) : UpTo D (fsub f x y) :=
  fadd_upTo hx hy.negate hD h

/-- The difference of two non-negative values is no larger than the larger of their bounds. -/
theorem fsub_upTo_of_nonneg {x y : Ieee} {D : Rat} (hx : SignedUpTo false D x) (hy : SignedUpTo false D y)
    (hD : f.Representable D) : UpTo D (fsub f x y) := by
  obtain ⟨m, rfl, hm0, hm⟩ := hx
  obtain ⟨n, rfl, hn0, hn⟩ := hy
  have hsum : |signed false m + signed true n| ≤ D := by
    simp only [signed, Bool.false_eq_true, if_false, if_true]
    rw [abs_le]; constructor <;> linarith
  simp only [fsub, negate, fadd, Bool.not_false]
  split
  · exact ⟨_, 0, rfl, le_rfl, hm0.trans hm⟩
  · exact (round_upTo _ (abs_nonneg _) hsum hD).upTo

theorem fmul_signedUpTo {s t : Bool} {x y : Ieee} {B C : Rat} (hx : SignedUpTo s B x) (hy : SignedUpTo t C y) {D : Rat}
    (hD : f.Representable D) (h : B * C ≤ D) : SignedUpTo (s != t) D (fmul f x y) := by
  obtain ⟨m, rfl, hm0, hm⟩ := hx
  obtain ⟨n, rfl, hn0, hn⟩ := hy
  exact round_upTo _ (mul_nonneg hm0 hn0) ((mul_le_mul hm hn hn0 (hm0.trans hm)).trans h) hD

theorem fmul_upTo {x y : Ieee} {B C : Rat} (hx : UpTo B x) (hy : UpTo C y) {D : Rat} (hD : f.Representable D)
    (h : B * C ≤ D) : UpTo D (fmul f x y) := by
  obtain ⟨s, hx⟩ := hx
  obtain ⟨t, hy⟩ := hy
  exact (fmul_signedUpTo hx hy hD h).upTo

/-- A quotient by a divisor whose magnitude is at least `L > 0`. -/
theorem fdiv_signedUpTo {s t : Bool} {x : Ieee} {B n L : Rat} (hx : SignedUpTo s B x) (hL : 0 < L) (hn : L ≤ n) {D : Rat}
    (hD : f.Representable D) (h : B / L ≤ D) : SignedUpTo (s != t) D (fdiv f x (.fin t n)) := by
  obtain ⟨m, rfl, hm0, hm⟩ := hx
  have hn0 : 0 < n := hL.trans_le hn
  simp only [fdiv, if_neg hn0.ne']
  exact round_upTo _ (div_nonneg hm0 hn0.le) ((div_le_div₀ (hm0.trans hm) hm hL hn).trans h) hD

theorem fdiv_upTo {x : Ieee} {B n L : Rat} {t : Bool} (hx : UpTo B x) (hL : 0 < L) (hn : L ≤ n) {D : Rat}
    (hD : f.Representable D) (h : B / L ≤ D) : UpTo D (fdiv f x (.fin t n)) := by
  obtain ⟨s, hx⟩ := hx
  exact (fdiv_signedUpTo hx hL hn hD h).upTo

end Ieee

end Sys2Proof
end

