-- ==== Sys2Proof/Laws/Frame.lean ====
section
/-! SUPPORT. The parts of the frame decoder and encoder (Decode.lean), each with what it does said once. -/

namespace Sys2Proof

/-- The reserved codes (R38, R43). -/
theorem opcodeOf_eq_none_iff (code : Byte) : opcodeOf code = none ↔ code.toNat = 0 ∨ 6 ≤ code.toNat := by
  revert code; decide +kernel

/-- The opcode table and the encoder's codes agree. -/
theorem opcodeOf_codeOf (op : Opcode) : opcodeOf (codeOf op) = some op := by
  cases op <;> decide

theorem eq_codeOf_of_opcodeOf {code : Byte} {op : Opcode} (h : opcodeOf code = some op) : code = codeOf op := by
  have all : ∀ c : Byte, ∀ o ∈ [Opcode.caldec, .unpack, .temp, .press, .hum], opcodeOf c = some o → c = codeOf o := by
    decide +kernel
  exact all code op (by cases op <;> simp) h

theorem le32_extract (w : BitVec 32) :
    le32 (w.extractLsb' 0 8) (w.extractLsb' 8 8) (w.extractLsb' 16 8) (w.extractLsb' 24 8) = w := by
  apply BitVec.eq_of_getLsbD_eq
  intro i hi
  simp only [le32, BitVec.getLsbD_append, BitVec.getLsbD_extractLsb']
  grind

theorem bytes32_le32 (a b c d : Byte) : bytes32 (le32 a b c d) = [a, b, c, d] := by
  simp only [bytes32, le32, List.cons.injEq, and_true]
  refine ⟨?_, ?_, ?_, ?_⟩ <;> (ext i hi; simp) <;> grind

theorem narrow_setWidth {n : Nat} (h : n ≤ 32) (r : BitVec n) : narrow n (r.setWidth 32) = some r := by
  have : (r.setWidth 32).setWidth n = r := by
    apply BitVec.eq_of_toNat_eq
    have h1 : r.toNat < 2 ^ 32 := r.isLt.trans_le (Nat.pow_le_pow_right (by omega) h)
    simp only [BitVec.toNat_setWidth, Nat.mod_eq_of_lt h1, Nat.mod_eq_of_lt r.isLt]
  simp [narrow, this]

theorem setWidth_of_narrow {n : Nat} {w : BitVec 32} {r : BitVec n} (h : narrow n w = some r) : r.setWidth 32 = w := by
  unfold narrow at h
  split at h
  · cases h; assumption
  · cases h

theorem wellFormed_caldec (a b : List Byte) : Instr.WellFormed (.caldec a b) ↔ a.length ≤ 255 ∧ b.length ≤ 255 := by
  simp [Instr.WellFormed, Instr.wellFormed]; rfl

end Sys2Proof
end

