-- ==== Sys2Proof/Laws/Operands.lean ====
section
/-! SUPPORT. What the operand forms of Machine/Operands.lean compute, on natural numbers; the calibration decoder field by
field; and the two halves of each byte layout. -/

namespace Sys2Proof.Machine

theorem append_byte_toNat {n : Nat} (x : BitVec n) (b : Byte) : (x ++ b : BitVec (n + 8)).toNat = 256 * x.toNat + b.toNat := by
  rw [BitVec.toNat_append, Nat.shiftLeft_eq, Nat.mul_comm, ← Nat.two_pow_add_eq_or_of_lt b.isLt]

theorem append_nibble_toNat {n : Nat} (x : BitVec n) (d : BitVec 4) : (x ++ d : BitVec (n + 4)).toNat = 16 * x.toNat + d.toNat := by
  rw [BitVec.toNat_append, Nat.shiftLeft_eq, Nat.mul_comm, ← Nat.two_pow_add_eq_or_of_lt d.isLt]

theorem s12h4_toNat (whole shared : Byte) : (s12h4 whole shared).toNat = 16 * whole.toNat + shared.toNat % 16 := by
  rw [s12h4, append_nibble_toNat]; simp [BitVec.extractLsb'_toNat]

theorem s12h5_toNat (whole shared : Byte) : (s12h5 whole shared).toNat = 16 * whole.toNat + shared.toNat / 16 := by
  have := shared.isLt
  rw [s12h5, append_nibble_toNat]; simp [BitVec.extractLsb'_toNat, Nat.shiftRight_eq_div_pow]; omega

theorem u20be4_toNat (a b c : Byte) : (u20be4 a b c).toNat = (a.toNat * 65536 + b.toNat * 256 + c.toNat) / 16 := by
  have := a.isLt
  have := b.isLt
  have := c.isLt
  have e : (a ++ b ++ c : BitVec 24).toNat = 256 * (256 * a.toNat + b.toNat) + c.toNat := by
    rw [append_byte_toNat, append_byte_toNat]
  simp only [u20be4, BitVec.extractLsb'_toNat, e, Nat.shiftRight_eq_div_pow]; omega

theorem u16be_toNat (a b : Byte) : (u16be a b).toNat = a.toNat * 256 + b.toNat := by
  rw [u16be, append_byte_toNat, Nat.mul_comm]

/-- The decoder, byte by byte: the layout of R39 and R40 unfolded. -/
theorem decodeCal_eq (a : BlockA) (b : BlockB) : decodeCal a b = {
    T1 := a[1] ++ a[0], T2 := a[3] ++ a[2], T3 := a[5] ++ a[4], P1 := a[7] ++ a[6], P2 := a[9] ++ a[8],
    P3 := a[11] ++ a[10], P4 := a[13] ++ a[12], P5 := a[15] ++ a[14], P6 := a[17] ++ a[16], P7 := a[19] ++ a[18],
    P8 := a[21] ++ a[20], P9 := a[23] ++ a[22], H1 := a[24], H2 := b[1] ++ b[0], H3 := b[2], H4 := s12h4 b[3] b[4],
    H5 := s12h5 b[5] b[4], H6 := b[6] } := rfl

theorem high_low (w : BitVec 16) : (w.extractLsb' 8 8 ++ w.extractLsb' 0 8 : BitVec 16) = w := by
  apply BitVec.eq_of_getLsbD_eq
  intro i hi
  simp only [BitVec.getLsbD_append, BitVec.getLsbD_extractLsb']; grind

theorem low_of_append (a b : Byte) : (a ++ b : BitVec 16).extractLsb' 0 8 = b := by
  ext i hi; simp; grind

theorem high_of_append (a b : Byte) : (a ++ b : BitVec 16).extractLsb' 8 8 = a := by
  ext i hi; simp; grind

theorem s12h4_extract (h : BitVec 12) (g : BitVec 4) : s12h4 (h.extractLsb' 4 8) (g ++ h.extractLsb' 0 4) = h := by
  apply BitVec.eq_of_getLsbD_eq
  intro i hi
  simp only [s12h4, BitVec.getLsbD_append, BitVec.getLsbD_extractLsb']; grind

theorem s12h5_extract (h : BitVec 12) (g : BitVec 4) : s12h5 (h.extractLsb' 4 8) (h.extractLsb' 0 4 ++ g) = h := by
  apply BitVec.eq_of_getLsbD_eq
  intro i hi
  simp only [s12h5, BitVec.getLsbD_append, BitVec.getLsbD_extractLsb']; grind

theorem whole_of_s12h4 (x y : Byte) : BitVec.extractLsb' 4 8 (s12h4 x y) = x := by
  unfold s12h4; ext i hi; simp; grind

theorem whole_of_s12h5 (x y : Byte) : BitVec.extractLsb' 4 8 (s12h5 x y) = x := by
  unfold s12h5; ext i hi; simp; grind

theorem shared_of_s12 (x z y : Byte) : (BitVec.extractLsb' 0 4 (s12h5 x y) ++ BitVec.extractLsb' 0 4 (s12h4 z y) : BitVec 8) = y := by
  apply BitVec.eq_of_getLsbD_eq
  intro i hi
  simp only [s12h4, s12h5, BitVec.getLsbD_append, BitVec.getLsbD_extractLsb']; grind

end Sys2Proof.Machine
end

