-- ==== Sys2Proof/Laws/State.lean ====
section
/-! SUPPORT. One lemma per field per named update of the state (Machine/Ops.lean), so that no later proof unfolds a record
update; and the fields of the state after reset. -/

namespace Sys2Proof.Machine

/-! ### `State.answer` -/

@[simp] theorem State.answer_phase (s : State) (r : Response) : (s.answer r).phase = s.phase := rfl
@[simp] theorem State.answer_err (s : State) (r : Response) : (s.answer r).err = s.err := rfl
@[simp] theorem State.answer_cal (s : State) (r : Response) : (s.answer r).cal = s.cal := rfl
@[simp] theorem State.answer_fmt (s : State) (r : Response) : (s.answer r).fmt = s.fmt := rfl
@[simp] theorem State.answer_host (s : State) (r : Response) : (s.answer r).host = s.host := rfl
@[simp] theorem State.answer_responses (s : State) (r : Response) : (s.answer r).responses = s.responses ++ [r] := rfl

/-! ### `State.fail` -/

@[simp] theorem State.fail_phase (s : State) (code : BitVec 8) : (s.fail code).phase = .failed := rfl
@[simp] theorem State.fail_err (s : State) (code : BitVec 8) : (s.fail code).err = code := rfl
@[simp] theorem State.fail_cal (s : State) (code : BitVec 8) : (s.fail code).cal = none := rfl
@[simp] theorem State.fail_fmt (s : State) (code : BitVec 8) : (s.fail code).fmt = s.fmt := rfl
@[simp] theorem State.fail_host (s : State) (code : BitVec 8) : (s.fail code).host = s.host := rfl
@[simp] theorem State.fail_responses (s : State) (code : BitVec 8) : (s.fail code).responses = s.responses := rfl

/-! ### `State.loadCal` -/

@[simp] theorem State.loadCal_phase (s : State) (c : Coefs) : (s.loadCal c).phase = .ready := rfl
@[simp] theorem State.loadCal_err (s : State) (c : Coefs) : (s.loadCal c).err = s.err := rfl
@[simp] theorem State.loadCal_cal (s : State) (c : Coefs) : (s.loadCal c).cal = some c := rfl
@[simp] theorem State.loadCal_fmt (s : State) (c : Coefs) : (s.loadCal c).fmt = s.fmt := rfl
@[simp] theorem State.loadCal_host (s : State) (c : Coefs) : (s.loadCal c).host = s.host := rfl
@[simp] theorem State.loadCal_responses (s : State) (c : Coefs) : (s.loadCal c).responses = s.responses := rfl

/-! ### `State.restart` -/

@[simp] theorem State.restart_phase (s : State) : (s.restart).phase = .empty := rfl
@[simp] theorem State.restart_err (s : State) : (s.restart).err = 0 := rfl
@[simp] theorem State.restart_cal (s : State) : (s.restart).cal = none := rfl
@[simp] theorem State.restart_fmt (s : State) : (s.restart).fmt = s.fmt := rfl
@[simp] theorem State.restart_host (s : State) : (s.restart).host = s.host := rfl
@[simp] theorem State.restart_responses (s : State) : (s.restart).responses = s.responses := rfl

/-! ### `State.withHost` -/

@[simp] theorem State.withHost_phase (s : State) (l : List HostAction) : (s.withHost l).phase = s.phase := rfl
@[simp] theorem State.withHost_err (s : State) (l : List HostAction) : (s.withHost l).err = s.err := rfl
@[simp] theorem State.withHost_cal (s : State) (l : List HostAction) : (s.withHost l).cal = s.cal := rfl
@[simp] theorem State.withHost_fmt (s : State) (l : List HostAction) : (s.withHost l).fmt = s.fmt := rfl
@[simp] theorem State.withHost_host (s : State) (l : List HostAction) : (s.withHost l).host = l := rfl
@[simp] theorem State.withHost_responses (s : State) (l : List HostAction) : (s.withHost l).responses = s.responses := rfl

/-! ### `State.reset` -/

@[simp] theorem State.reset_phase : State.reset.phase = .empty := rfl
@[simp] theorem State.reset_err : State.reset.err = 0 := rfl
@[simp] theorem State.reset_cal : State.reset.cal = none := rfl
@[simp] theorem State.reset_fmt : State.reset.fmt = .binary64 := rfl
@[simp] theorem State.reset_host : State.reset.host = [] := rfl
@[simp] theorem State.reset_responses : State.reset.responses = [] := rfl

@[simp] theorem State.lastResponse_answer (s : State) (r : Response) : (s.answer r).lastResponse = some r := by
  simp [State.lastResponse]

end Sys2Proof.Machine
end

