-- ==== Sys2Proof/Laws/Ops.lean ====
section
/-! SUPPORT. What the shared operations of Machine/Ops.lean and Machine/Port.lean can do, said once: which next state each
answers, and the inversion of `exec` (`exec_shape`), from which the facts about all commands follow. -/

namespace Sys2Proof.Machine

theorem respond_eq (p : Payload) (s : State) : respond p s = .next (s.answer ⟨okCode, 0, some p⟩) := rfl

/-- In a session that has not failed, a fault fails it and its code stays in `ERR` (R86). -/
theorem raise_of_not_failed {s : State} (h : s.phase ≠ .failed) (f : FaultCode) (info : BitVec 8) :
    raise f info s = .next ((s.fail f.code).answer ⟨f.code, info, none⟩) := by
  simp [raise, h]

/-- In a failed session a fault changes nothing but the responses (R86, R87). -/
theorem raise_of_failed {s : State} (h : s.phase = .failed) (f : FaultCode) (info : BitVec 8) :
    raise f info s = .next (s.answer ⟨f.code, info, none⟩) := by
  simp [raise, h]

theorem raiseSessionFailed_eq {s : State} (h : s.phase = .failed) :
    raiseSessionFailed s = .next (s.answer ⟨4, s.err, none⟩) := by
  rw [raiseSessionFailed, raise_of_failed h]; rfl

theorem rejectCommand_of_failed {s : State} (h : s.phase = .failed) (code : Byte) :
    rejectCommand code s = .next (s.answer ⟨4, s.err, none⟩) := by
  simp only [rejectCommand, h]; exact raiseSessionFailed_eq h

theorem rejectCommand_of_not_failed {s : State} (h : s.phase ≠ .failed) (code : Byte) :
    rejectCommand code s = .next ((s.fail 5).answer ⟨5, code, none⟩) := by
  have := raise_of_not_failed h .reservedCommand code
  cases hp : s.phase <;> simp_all [rejectCommand, FaultCode.code]

variable {k : Coefs → State → Host.Outcome State Fault Refusal}

theorem admission_of_failed {s : State} (h : s.phase = .failed) : admission k s = .next (s.answer ⟨4, s.err, none⟩) := by
  simp only [admission, h]; exact raiseSessionFailed_eq h

theorem admission_of_empty {s : State} (h : s.phase = .empty) : admission k s = .next ((s.fail 2).answer ⟨2, 0, none⟩) := by
  simp only [admission, h]; exact raise_of_not_failed (by simp [h]) .noCalibration 0

theorem admission_of_ready {s : State} {c : Coefs} (h : s.phase = .ready) (hc : s.cal = some c) : admission k s = k c s := by
  simp only [admission, h, hc]

/-- All that a next state of a command can be: the same state, or the state failed with a fault's code, or the store loaded,
each with one response more. -/
inductive ExecShape (s : State) : State → Prop where
  /-- `SessionFailed` (R80). -/
  | sessionFailed (h : s.phase = .failed) : ExecShape s (s.answer ⟨4, s.err, none⟩)
  /-- A fault that fails the session (R86). -/
  | fails (h : s.phase ≠ .failed) (code : BitVec 8) (info : BitVec 8) (hcode : code = 1 ∨ code = 2 ∨ code = 3 ∨ code = 5) :
      ExecShape s ((s.fail code).answer ⟨code, info, none⟩)
  /-- CALDEC in `EMPTY` (R51). -/
  | loads (h : s.phase = .empty) (c : Coefs) : ExecShape s ((s.loadCal c).answer ⟨0, 0, some (.coefficients c)⟩)
  /-- UNPACK in `EMPTY` or `READY` (R57). -/
  | unpacks (h : s.phase ≠ .failed) (smp : SampleBlock) : ExecShape s (s.answer ⟨0, 0, some (unpackSample smp)⟩)
  /-- TEMP in `READY` (R60). -/
  | temperature (h : s.phase = .ready) (c : Coefs) (hc : s.cal = some c) (rawT : BitVec 20) :
      ExecShape s (s.answer ⟨0, 0, some (withFormat s.fmt fun _ N => tempPayload N c rawT)⟩)
  /-- PRESS in `READY` (R64). -/
  | pressure (h : s.phase = .ready) (c : Coefs) (hc : s.cal = some c) (rawP : BitVec 20) (fine : BitVec 32) :
      ExecShape s (s.answer ⟨0, 0, some (.pressure (withFormat s.fmt fun _ N => N.toNum (pressPascals N c rawP fine)))⟩)
  /-- HUM in `READY` (R67). -/
  | humidity (h : s.phase = .ready) (c : Coefs) (hc : s.cal = some c) (rawH : BitVec 16) (fine : BitVec 32) :
      ExecShape s (s.answer ⟨0, 0, some (.humidity (withFormat s.fmt fun _ N => N.toNum (humPercent N c rawH fine)))⟩)

/-- Admission, inverted: a command that answers a next state was turned away or had the coefficient registers. -/
theorem admission_cases {s t : State} (h : admission k s = .next t) :
    ExecShape s t ∨ ∃ c, s.phase = .ready ∧ s.cal = some c ∧ k c s = .next t := by
  cases hp : s.phase with
  | failed =>
    rw [admission_of_failed hp] at h
    cases h; exact .inl (.sessionFailed hp)
  | empty =>
    rw [admission_of_empty hp] at h
    cases h; exact .inl (.fails (by simp [hp]) 2 0 (by decide))
  | ready =>
    cases hc : s.cal with
    | none => simp [admission, hp, hc] at h
    | some c => exact .inr ⟨c, rfl, rfl, by rwa [admission_of_ready hp hc] at h⟩

theorem exec_shape {i : Instr} {s t : State} (h : exec i s = .next t) : ExecShape s t := by
  cases i with
  | caldec cala calb =>
    simp only [exec, execCaldec] at h
    cases hp : s.phase with
    | failed =>
      simp only [hp, raiseSessionFailed_eq hp] at h
      cases h; exact .sessionFailed hp
    | ready =>
      simp only [hp, raise_of_not_failed (s := s) (by simp [hp])] at h
      cases h; exact .fails (by simp [hp]) _ _ (by decide)
    | empty =>
      simp only [hp] at h
      split at h
      · cases h; exact .loads hp _
      · rw [raise_of_not_failed (by simp [hp])] at h
        cases h; exact .fails (by simp [hp]) _ _ (by decide)
  | unpack smp =>
    simp only [exec, execUnpack] at h
    cases hp : s.phase with
    | failed =>
      simp only [hp, raiseSessionFailed_eq hp] at h
      cases h; exact .sessionFailed hp
    | ready => simp only [hp, respond_eq] at h; cases h; exact .unpacks (by simp [hp]) smp
    | empty => simp only [hp, respond_eq] at h; cases h; exact .unpacks (by simp [hp]) smp
  | temp rawT =>
    rcases admission_cases h with h | ⟨c, hp, hc, h⟩
    · exact h
    · cases h; exact .temperature hp c hc rawT
  | press rawP fine =>
    rcases admission_cases h with h | ⟨c, hp, hc, h⟩
    · exact h
    · cases h; exact .pressure hp c hc rawP fine
  | hum rawH fine =>
    rcases admission_cases h with h | ⟨c, hp, hc, h⟩
    · exact h
    · cases h; exact .humidity hp c hc rawH fine

/-- A rejected command, inverted. -/
theorem rejectCommand_shape {s t : State} {code : Byte} (h : rejectCommand code s = .next t) : ExecShape s t := by
  by_cases hp : s.phase = .failed
  · rw [rejectCommand_of_failed hp] at h
    cases h; exact .sessionFailed hp
  · rw [rejectCommand_of_not_failed hp] at h
    cases h; exact .fails hp 5 code (by decide)

/-- One action of the host, inverted: a reset, or one response more. -/
theorem present_cases {a : HostAction} {s t : State} (h : present a s = .next t) :
    (a = .reset ∧ t = s.restart) ∨ (a ≠ .reset ∧ ExecShape s t) := by
  cases a with
  | reset => cases h; exact .inl ⟨rfl, rfl⟩
  | command i =>
    refine .inr ⟨by simp, ?_⟩
    simp only [present, presentCommand] at h
    split at h
    · exact exec_shape h
    · cases h
  | reservedCode code =>
    refine .inr ⟨by simp, ?_⟩
    simp only [present, presentReserved] at h
    split at h
    · exact rejectCommand_shape h
    · cases h
  | frame bytes =>
    refine .inr ⟨by simp, ?_⟩
    simp only [present, presentFrame] at h
    split at h
    · exact exec_shape h
    · exact rejectCommand_shape h

/-- One step, inverted: no action left and nothing changed, or a reset, or one response more. -/
theorem step_cases {s t : State} (h : step s = .next t) :
    (s.host = [] ∧ t = s) ∨
    (∃ a rest, s.host = a :: rest ∧
      ((a = .reset ∧ t = (s.withHost rest).restart) ∨ (a ≠ .reset ∧ ExecShape (s.withHost rest) t))) := by
  simp only [step, takeNext] at h
  split at h
  · next hh => cases h; exact .inl ⟨hh, rfl⟩
  · next a rest hh => exact .inr ⟨a, rest, hh, present_cases h⟩

end Sys2Proof.Machine
end

