-- ==== Sys2Proof/Laws/PerInstr.lean ====
section
/-! SUPPORT. The family `FrameShape`: the frame of every command begins with its code byte and is one code byte longer than
the operand bytes that the table of R44 gives it. -/

namespace Sys2Proof.Laws.FrameShape

/-- The code byte and the number of operand bytes of a command (R38, R44). -/
def shape : Instr → Nat × Nat
  | .caldec cala calb => (1, 2 + cala.length + calb.length)
  | .unpack _ => (2, 8)
  | .temp _ => (3, 4)
  | .press _ _ => (4, 8)
  | .hum _ _ => (5, 8)

/-- The frame has the shape that the table of R44 gives it. -/
def Statement (i : Instr) : Prop :=
  (encode i).length = 1 + (shape i).2 ∧ (encode i).head?.map BitVec.toNat = some (shape i).1

theorem caldec (cala calb : List Byte) : Statement (.caldec cala calb) :=
  ⟨by simp [encode, shape]; omega, rfl⟩

theorem unpack (smp : SampleBlock) : Statement (.unpack smp) := ⟨by simp [encode, shape], rfl⟩

theorem temp (rawT : BitVec 20) : Statement (.temp rawT) := ⟨rfl, rfl⟩

theorem press (rawP : BitVec 20) (fine : BitVec 32) : Statement (.press rawP fine) := ⟨rfl, rfl⟩

theorem hum (rawH : BitVec 16) (fine : BitVec 32) : Statement (.hum rawH fine) := ⟨rfl, rfl⟩

end Sys2Proof.Laws.FrameShape
end

