-- ==== Sys2Proof/Laws/Primitives.lean ====
section
/-! SUPPORT. The primitives of `Num(FMT)` (Machine/Number.lean) as the proofs over the formulas cite them: they give values of
the format, they keep bounds that are powers of two, and a sum is zero only when its exact sum is. -/

namespace Sys2Proof

/-! ### The exact instance -/

theorem exactDiv_of_ne_zero {a b : Rat} (h : b ≠ 0) : exactDiv a b = a / b := by simp [exactDiv, h]

theorem truncRat_abs {q : Rat} {B : Int} (h : |q| ≤ B) : -B ≤ truncRat q ∧ truncRat q ≤ B := by
  rw [abs_le] at h
  have floor_eq : ∀ q : Rat, q.floor = ⌊q⌋ := fun _ => rfl
  have hB : (0 : Rat) ≤ B := by linarith
  have hB' : 0 ≤ B := by exact_mod_cast hB
  unfold truncRat
  split
  · rw [floor_eq]
    have h1 : 0 ≤ ⌊-q⌋ := Int.floor_nonneg.mpr (by linarith)
    have h2 : ⌊-q⌋ ≤ B := by
      have : (⌊-q⌋ : Rat) ≤ B := (Int.floor_le _).trans (by linarith)
      exact_mod_cast this
    omega
  · rw [floor_eq]
    have h1 : 0 ≤ ⌊q⌋ := Int.floor_nonneg.mpr (by linarith)
    have h2 : ⌊q⌋ ≤ B := by
      have : (⌊q⌋ : Rat) ≤ B := (Int.floor_le _).trans (by linarith)
      exact_mod_cast this
    omega

/-! ### Powers of two as bounds -/

theorem pow2_natCast (n : Nat) : pow2 (n : Int) = 2 ^ n := by rw [pow2_ofNat]; push_cast; rfl

theorem natCast_le_pow2 {n k : Nat} (h : n ≤ 2 ^ k) : (n : Rat) ≤ pow2 k := by rw [pow2_ofNat]; exact_mod_cast h

theorem pow2_le_natCast {n k : Nat} (h : 2 ^ k ≤ n) : pow2 k ≤ (n : Rat) := by rw [pow2_ofNat]; exact_mod_cast h

theorem pow2_half_add_half (k : Int) : pow2 k = pow2 (k - 1) + pow2 (k - 1) := by
  have h := pow2_add (k - 1) 1
  rw [show k - 1 + 1 = k by ring, show pow2 1 = 2 from (pow2_natCast 1).trans (by norm_num)] at h
  rw [h]; ring

theorem toInt_abs_le_pow2 {n : Nat} (x : BitVec (n + 1)) : |(x.toInt : Rat)| ≤ pow2 n := by
  have h1 := x.toInt_lt
  have h2 := x.le_toInt
  simp only [Nat.add_sub_cancel] at h1 h2
  rw [pow2_natCast, abs_le]
  constructor
  · have : ((-2 ^ n : Int) : Rat) ≤ (x.toInt : Rat) := by exact_mod_cast h2
    push_cast at this; exact this
  · have : (x.toInt : Rat) ≤ ((2 ^ n : Int) : Rat) := by exact_mod_cast h1.le
    push_cast at this; exact this

theorem toNat_abs_le_pow2 {n : Nat} (x : BitVec n) : |((x.toNat : Int) : Rat)| ≤ pow2 n := by
  have := x.isLt
  rw [abs_of_nonneg (by positivity), pow2_natCast]; exact_mod_cast this.le

variable {f : FloatFormat}

theorem FloatFormat.AtLeast32.representable_natCast (hf : f.AtLeast32) {n : Nat} (h : n ≤ 2 ^ 24) : f.Representable n := by
  have h1 := hf.1
  have h2 := hf.2
  have h3 := hf.3
  constructor
  · exact (natCast_le_pow2 h).trans_lt (pow2_lt_pow2 (by push_cast; omega))
  · rcases h.eq_or_lt with rfl | h
    · rw [← pow2_ofNat]; exact f.onGrid_pow2 (by push_cast; omega)
    · exact f.onGrid_natCast (h.trans_le (Nat.pow_le_pow_right (by norm_num) (by omega))) (by omega)

theorem FloatFormat.AtLeast32.representable_pow2 (hf : f.AtLeast32) {k : Int} (h1 : -149 ≤ k) (h2 : k < 128) :
    f.Representable (pow2 k) := by
  have a := hf.1
  have b := hf.2
  have c := hf.3
  exact Ieee.representable_pow2 (by omega) (by omega)

/-- A power of two in the range of `binary64`, which is larger than that of `binary32`. -/
theorem FloatFormat.representable_pow2_binary64 {k : Int} (h1 : -1074 ≤ k) (h2 : k < 1024) :
    FloatFormat.binary64.Representable (pow2 k) := by
  have e1 : FloatFormat.binary64.eMin = -1022 := by decide
  have e2 : FloatFormat.binary64.fracBits = 52 := rfl
  have e3 : FloatFormat.binary64.eTop = 1024 := by decide
  exact Ieee.representable_pow2 (by rw [e1, e2]; omega) (by rw [e3]; exact h2)

namespace Ieee

/-! ### Literals and operands -/

/-- A literal of at most 2^24 is the number it names. -/
theorem lit_natCast (hf : f.AtLeast32) {n : Nat} (h : n ≤ 2 ^ 24) : ofInt f ((n : Nat) : Int) = .fin false n :=
  ofInt_natCast (hf.representable_natCast h)

theorem lit_upTo (hf : f.AtLeast32) (n k : Nat) (h : n ≤ 2 ^ 24) (h' : n ≤ 2 ^ k) : UpTo (pow2 k) (ofInt f ((n : Nat) : Int)) := by
  rw [lit_natCast hf h]; exact ⟨_, _, rfl, by positivity, natCast_le_pow2 h'⟩

theorem ofInt_upTo_pow2 (hf : f.AtLeast32) {i k : Int} (h : |(i : Rat)| ≤ pow2 k) (h1 : -149 ≤ k) (h2 : k < 128) :
    UpTo (pow2 k) (ofInt f i) :=
  ofInt_upTo h (hf.representable_pow2 h1 h2)

/-! ### The primitives on operands bounded by powers of two -/

theorem fmul_upTo_pow2 {x y : Ieee} {j k m : Int} (hx : UpTo (pow2 j) x) (hy : UpTo (pow2 k) y) (hm : f.Representable (pow2 m))
    (h : j + k ≤ m) : UpTo (pow2 m) (fmul f x y) :=
  fmul_upTo hx hy hm (by rw [← pow2_add]; exact pow2_le_pow2 h)

theorem fadd_upTo_pow2 {x y : Ieee} {j k m : Int} (hx : UpTo (pow2 j) x) (hy : UpTo (pow2 k) y) (hm : f.Representable (pow2 m))
    (hj : j + 1 ≤ m) (hk : k + 1 ≤ m) : UpTo (pow2 m) (fadd f x y) := by
  refine fadd_upTo hx hy hm ?_
  rw [pow2_half_add_half m]
  exact add_le_add (pow2_le_pow2 (by omega)) (pow2_le_pow2 (by omega))

theorem fsub_upTo_pow2 {x y : Ieee} {j k m : Int} (hx : UpTo (pow2 j) x) (hy : UpTo (pow2 k) y) (hm : f.Representable (pow2 m))
    (hj : j + 1 ≤ m) (hk : k + 1 ≤ m) : UpTo (pow2 m) (fsub f x y) :=
  fadd_upTo_pow2 hx hy.negate hm hj hk

theorem fdiv_upTo_pow2 {x : Ieee} {j k m : Int} {t : Bool} {n : Rat} (hx : UpTo (pow2 j) x) (hn : pow2 k ≤ n)
    (hm : f.Representable (pow2 m)) (h : j - k ≤ m) : UpTo (pow2 m) (fdiv f x (.fin t n)) := by
  refine fdiv_upTo hx (pow2_pos k) hn hm ?_
  rw [div_le_iff₀ (pow2_pos k), ← pow2_add]; exact pow2_le_pow2 (by omega)

/-! ### Values of the format -/

theorem nonneg_of_representable {q : Rat} (h : f.Representable q) : 0 ≤ q := FloatFormat.OnGrid.nonneg (f := f) h.2

theorem inFormat_zero (s : Bool) : Ieee.InFormat f (.fin s 0) := ⟨pow2_pos _, f.onGrid_zero⟩

theorem inFormat_ofInt (i : Int) : Ieee.InFormat f (ofInt f i) := f.round_inFormat _ (Nat.cast_nonneg _)

theorem inFormat_fadd (x y : Ieee) : Ieee.InFormat f (fadd f x y) := by
  cases x <;> cases y <;> simp only [fadd] <;> (try split) <;>
    first | trivial | exact inFormat_zero _ | exact f.round_inFormat _ (abs_nonneg _)

theorem inFormat_fsub (x y : Ieee) : Ieee.InFormat f (fsub f x y) := inFormat_fadd _ _

theorem inFormat_fmul {x y : Ieee} (hx : x.InFormat f) (hy : y.InFormat f) : Ieee.InFormat f (fmul f x y) := by
  cases x <;> cases y <;> simp only [fmul] <;> (try split) <;>
    first | trivial | exact f.round_inFormat _ (mul_nonneg (nonneg_of_representable hx) (nonneg_of_representable hy))

theorem inFormat_fdiv {x y : Ieee} (hx : x.InFormat f) (hy : y.InFormat f) : Ieee.InFormat f (fdiv f x y) := by
  cases x <;> cases y <;> simp only [fdiv] <;> (try split) <;> (try split) <;>
    first
      | trivial
      | exact inFormat_zero _
      | exact f.round_inFormat _ (div_nonneg (nonneg_of_representable hx) (nonneg_of_representable hy))

/-! ### When a sum is zero -/

/-- A value of the grid is a multiple of the smallest positive value. -/
theorem multiple_of_least {q : Rat} (h : f.OnGrid q) : ∃ k : Nat, q = k * pow2 (f.eMin - f.fracBits) := by
  obtain ⟨m, e, -, he, rfl⟩ := h
  obtain ⟨d, hd⟩ := Int.eq_ofNat_of_zero_le (show 0 ≤ e - (f.eMin - f.fracBits) by omega)
  refine ⟨m * 2 ^ d, ?_⟩
  rw [Nat.cast_mul, ← pow2_ofNat, mul_assoc, ← pow2_add]
  congr 2; omega

theorem signed_natCast_mul (s : Bool) (k : Nat) (u : Rat) : ∃ i : Int, signed s (k * u) = i * u := by
  cases s
  · exact ⟨k, by simp [signed]⟩
  · exact ⟨-k, by simp [signed]⟩

/-- A sum of two values of the format is a zero only when the exact sum is zero: addition does not underflow. -/
theorem fadd_fin_eq_zero_iff {s t z : Bool} {a b n : Rat} (ha : f.OnGrid a) (hb : f.OnGrid b)
    (h : fadd f (.fin s a) (.fin t b) = .fin z n) : n = 0 ↔ signed s a + signed t b = 0 := by
  simp only [fadd] at h
  split_ifs at h with h0
  · cases h; simp [h0]
  · simp only [h0, iff_false]
    obtain ⟨k, rfl⟩ := multiple_of_least ha
    obtain ⟨l, rfl⟩ := multiple_of_least hb
    obtain ⟨i, hi⟩ := signed_natCast_mul s k (pow2 (f.eMin - f.fracBits))
    obtain ⟨j, hj⟩ := signed_natCast_mul t l (pow2 (f.eMin - f.fracBits))
    rw [hi, hj, ← add_mul] at h h0
    have hp := pow2_pos (f.eMin - f.fracBits)
    have hij : i + j ≠ 0 := fun e => h0 (by rw [← Int.cast_add, e]; simp)
    have h1 : (1 : Rat) ≤ |(i : Rat) + j| := by
      rw [← Int.cast_add, ← Int.cast_abs]; exact_mod_cast Int.one_le_abs hij
    have h2 : pow2 (f.eMin - f.fracBits) ≤ |((i : Rat) + j) * pow2 (f.eMin - f.fracBits)| := by
      rw [abs_mul, abs_of_pos hp]; nlinarith
    have h3 := f.le_roundMag_of_onGrid (f.onGrid_pow2 le_rfl) h2
    unfold FloatFormat.round at h
    split at h <;> cases h
    exact (hp.trans_le h3).ne'

end Ieee

end Sys2Proof
end

