-- ==== Sys2Proof/Laws/Run.lean ====
section
/-! SUPPORT. Runs of the machine (Host/Core.lean `Core.run`): one step more, what a step leaves of the host's actions, and
the induction over a run without a reset. -/

namespace Sys2Proof.Machine

theorem core_run_succ (M : Host.Core) {k : Nat} {s u : M.State} (h : M.run (k + 1) s = .next u) :
    ∃ t, M.step s = .next t ∧ M.run k t = .next u := by
  unfold Host.Core.run at h
  split at h
  · next t ht => exact ⟨t, ht, h⟩
  · cases h
  · cases h

theorem run_succ {k : Nat} {s u : State} (h : Host.Core.run Sys2Proof.core (k + 1) s = Host.Outcome.next u) :
    ∃ t : State, step s = .next t ∧ Host.Core.run Sys2Proof.core k t = Host.Outcome.next u :=
  core_run_succ Sys2Proof.core h

/-- A step takes one action of the host, if there is one. -/
theorem step_host {s t : State} (h : step s = .next t) : (s.host = [] ∧ t.host = []) ∨ ∃ a, s.host = a :: t.host := by
  rcases step_cases h with ⟨h, rfl⟩ | ⟨a, rest, hh, ⟨rfl, rfl⟩ | ⟨ha, hx⟩⟩
  · exact .inl ⟨h, h⟩
  · exact .inr ⟨_, by simpa using hh⟩
  · exact .inr ⟨a, by rw [hh]; rcases hx <;> rfl⟩

/-- A relation that holds of no step, and of one step before a run that has it, holds of every run without a reset. -/
theorem run_induction (P : State → State → Prop) (hrefl : ∀ s, P s s)
    (hstep : ∀ s t u, (∀ a ∈ s.host, a ≠ .reset) → step s = .next t → P t u → P s u) :
    ∀ k s u, (∀ a ∈ s.host, a ≠ .reset) → Host.Core.run Sys2Proof.core k s = Host.Outcome.next u → P s u := by
  intro k
  induction k with
  | zero => intro s u _ h; cases h; exact hrefl _
  | succ k ih =>
    intro s u hn h
    obtain ⟨t, ht, h⟩ := run_succ h
    refine hstep s t u hn ht (ih t u ?_ h)
    rcases step_host ht with ⟨_, h⟩ | ⟨a, h⟩
    · simp [h]
    · intro b hb; exact hn b (by rw [h]; simp [hb])

end Sys2Proof.Machine
end

