-- ==== Sys2Proof/Tests/Slice0.lean ====
section
/-! SUPPORT. The model's own tests: an ill-formed term for each check of WellFormed, frames written out from the spec's
encoding, one-step tests with the values of 95_test_vectors.md, and a witness for the hypotheses of every statement. -/

namespace Sys2Proof.Tests

open Sys2Proof.Machine

/-! ### Helpers -/

/-- The next state of an outcome, if it is one. -/
def got (o : Host.Outcome State Fault Refusal) : Option State :=
  match o with
  | .next t => some t
  | .fault _ => none
  | .refused _ => none

/-- A state with these fields, no action of the host left and no response given. -/
def mk (phase : Phase) (err : BitVec 8) (cal : Option Coefs) (fmt : Fmt) : State := ⟨phase, err, cal, fmt, [], []⟩

/-- The blocks of vector V16, "set A". -/
def blockA : BlockA :=
  #v[0x70, 0x6B, 0x43, 0x67, 0x18, 0xFC, 0x7D, 0x8E, 0x43, 0xD6, 0xD0, 0x0B, 0x27, 0x0B, 0x8C, 0x00, 0xF9, 0xFF, 0x8C, 0x3C,
     0xF8, 0xC6, 0x70, 0x17, 0x4B]
def blockB : BlockB := #v[0x6F, 0x01, 0x00, 0x12, 0x2D, 0x03, 0x1E]

/-- The coefficients of set A, written from the table of V16 (not decoded). -/
def setA : Coefs where
  T1 := 27504
  T2 := 26435
  T3 := BitVec.ofInt 16 (-1000)
  P1 := 36477
  P2 := BitVec.ofInt 16 (-10685)
  P3 := 3024
  P4 := 2855
  P5 := 140
  P6 := BitVec.ofInt 16 (-7)
  P7 := 15500
  P8 := BitVec.ofInt 16 (-14600)
  P9 := 6000
  H1 := 75
  H2 := 367
  H3 := 0
  H4 := 301
  H5 := 50
  H6 := 30

/-- A session in `READY` with the coefficients `c`. -/
def ready (c : Coefs) (fmt : Fmt) : State := mk .ready 0 (some c) fmt

/-- A session that an attempt to use TEMP before calibration has failed. -/
def failed : State := mk .failed 2 none .binary64

/-- The state with one response more. -/
def plus (s : State) (r : Response) : State := { s with responses := s.responses ++ [r] }

/-- The bit pattern of the number of the last response, and `fine` where there is one. -/
def bitsOf (o : Host.Outcome State Fault Refusal) : Option (Nat × Int) :=
  match (got o).bind fun t => payloadOf t.lastResponse with
  | some (.temperature x fine) => x.bits.map fun b => (b, fine.toInt)
  | some (.pressure x) => x.bits.map fun b => (b, 0)
  | some (.humidity x) => x.bits.map fun b => (b, 0)
  | _ => none

/-! ### WellFormed -/

theorem test_wellFormed_longest : Instr.WellFormed (.caldec (List.replicate 255 0) (List.replicate 255 0)) := by decide +kernel

theorem test_illFormed_cala : ¬ Instr.WellFormed (.caldec (List.replicate 256 0) []) := by decide +kernel

theorem test_illFormed_calb : ¬ Instr.WellFormed (.caldec [] (List.replicate 256 0)) := by decide +kernel

theorem test_illFormed_is_refused :
    (match step { State.reset with host := [.command (.caldec (List.replicate 256 0) [])] } with
     | .refused .notACommand => true
     | _ => false) = true := by decide +kernel

theorem test_unreserved_code_is_refused :
    (match step { State.reset with host := [.reservedCode 0x05] } with
     | .refused .notACommand => true
     | _ => false) = true := by decide

/-! ### Decode: frames written out from R38 and R44 -/

theorem test_decode_caldec : decode [0x01, 0x02, 0xAA, 0xBB, 0x01, 0xCC] = .ok (.caldec [0xAA, 0xBB] [0xCC]) := by decide

theorem test_decode_unpack :
    decode [0x02, 1, 2, 3, 4, 5, 6, 7, 8] = .ok (.unpack #v[1, 2, 3, 4, 5, 6, 7, 8]) := by decide

theorem test_decode_temp : decode [0x03, 0x80, 0x1A, 0x06, 0x00] = .ok (.temp 400000) := by decide

theorem test_decode_press :
    decode [0x04, 0xAC, 0x55, 0x06, 0x00, 0x00, 0xF4, 0x11, 0x00] = .ok (.press 415148 1176576) := by decide

theorem test_decode_hum :
    decode [0x05, 0xFF, 0xFF, 0x00, 0x00, 0x21, 0x03, 0xFF, 0xFF] = .ok (.hum 65535 (BitVec.ofInt 32 (-64735))) := by decide

theorem test_decode_empty : decode [] = .error .emptyFrame := by decide

theorem test_decode_reserved :
    decode [0x00] = .error (.reservedCode 0x00) ∧ decode [0x06, 1] = .error (.reservedCode 0x06) ∧
    decode [0xFF] = .error (.reservedCode 0xFF) := by decide

theorem test_decode_wrong_length :
    decode [0x01] = .error (.wrongLength 1) ∧ decode [0x01, 0x01, 0xAA] = .error (.wrongLength 1) ∧
    decode [0x01, 0x00, 0x00, 0x00] = .error (.wrongLength 1) ∧ decode [0x02, 1, 2] = .error (.wrongLength 2) ∧
    decode [0x03, 0, 0, 0, 0, 0] = .error (.wrongLength 3) ∧ decode [0x04] = .error (.wrongLength 4) ∧
    decode [0x05, 0, 0, 0, 0] = .error (.wrongLength 5) := by decide

theorem test_decode_pad :
    decode [0x03, 0, 0, 0x10, 0] = .error (.nonzeroPad 3) ∧ decode [0x04, 0, 0, 0, 0x80, 0, 0, 0, 0] = .error (.nonzeroPad 4) ∧
    decode [0x05, 0, 0, 1, 0, 0, 0, 0, 0] = .error (.nonzeroPad 5) := by decide

/-- No two rows of the opcode table overlap. -/
theorem test_opcode_rows_disjoint :
    opcodeTable.Pairwise fun a b => a.pattern &&& (a.mask &&& b.mask) ≠ b.pattern &&& (a.mask &&& b.mask) := by decide

theorem test_decodeTableWord :
    decodeTableWord 8 1 = some (.caldec [] []) ∧ decodeTableWord 8 2 = some (.unpack #v[0, 0, 0, 0, 0, 0, 0, 0]) ∧
    decodeTableWord 8 3 = some (.temp 0) ∧ decodeTableWord 8 4 = some (.press 0 0) ∧ decodeTableWord 8 5 = some (.hum 0 0) ∧
    decodeTableWord 8 0 = none ∧ decodeTableWord 8 6 = none := by decide

/-- The first command after reset is the one placed: TEMP is turned away with `NoCalibration` (V28). -/
theorem test_withFetchWord :
    got (step (State.reset.withFetchWord 8 3)) = some (plus (mk .failed 2 none .binary64) ⟨2, 0, none⟩) := by decide

/-! ### One step of each command -/

/-- V17 (c), the ramp. -/
theorem test_caldec_ramp :
    ((got (exec (.caldec
        [0x10, 0x11, 0x12, 0x13, 0x14, 0x15, 0x16, 0x17, 0x18, 0x19, 0x1A, 0x1B, 0x1C, 0x1D, 0x1E, 0x1F, 0x20, 0x21, 0x22, 0x23,
         0x24, 0x25, 0x26, 0x27, 0x28] [0x80, 0x7F, 0xC3, 0x80, 0x0F, 0x7F, 0x80]) State.reset)).bind State.cal).map
      (fun c => [c.int .T1, c.int .P9, c.int .H1, c.int .H2, c.int .H3, c.int .H4, c.int .H5, c.int .H6])
    = some [4368, 10022, 40, 32640, 195, -2033, 2032, -128] := by decide

/-- V16: the set, `READY`, and the response. -/
theorem test_caldec_setA :
    got (exec (.caldec blockA.toList blockB.toList) State.reset)
      = some (plus (ready setA .binary64) ⟨0, 0, some (.coefficients setA)⟩) := by decide

/-- V19, row 3. -/
theorem test_unpack :
    got (exec (.unpack #v[0x12, 0x34, 0x56, 0x78, 0x9A, 0xBC, 0xDE, 0xF0]) State.reset)
      = some (plus State.reset ⟨0, 0, some (.sample 74565 493995 57072)⟩) := by decide

/-- V20, `binary64`. -/
theorem test_temp_binary64 :
    bitsOf (exec (.temp 519888) (ready setA .binary64)) = some (0x4039151D460F8000, 128422) := by decide +kernel

/-- V24, the row where `binary32` rounds the sum to -32, so that `fine` is -32 and not -31. -/
theorem test_temp_binary32 :
    bitsOf (exec (.temp 0) (ready { setA with T1 := 65535, T2 := 32767, T3 := 32767 } .binary32))
      = some (0xBBCCCCCD, -32) := by decide +kernel

/-- V21, `binary64`. -/
theorem test_press_binary64 :
    bitsOf (exec (.press 415148 128422) (ready setA .binary64)) = some (0x40F892D4215C750E, 0) := by decide +kernel

/-- V26, `binary32`, beside the guard. -/
theorem test_press_beside_the_guard :
    bitsOf (exec (.press 415148 1176575) (ready { setA with P2 := 0x8000, P3 := 0 } .binary32))
      = some (0x58D9594C, 0) := by decide +kernel

/-- V22, `binary64`. -/
theorem test_hum_binary64 :
    bitsOf (exec (.hum 30000 128422) (ready setA .binary64)) = some (0x404E0A55A623F3BC, 0) := by decide +kernel

/-- V27: with H2 = 0 and a negative left factor the humidity is -0.0, which passes the clamp. -/
theorem test_hum_minus_zero :
    bitsOf (exec (.hum 0 128422) (ready { setA with H2 := 0 } .binary32)) = some (0x80000000, 0) := by decide +kernel

/-! ### Witnesses: states and operands that meet the hypotheses of the statements -/

theorem witness_ResetStartsANewSession :
    ∃ (s : State) (rest : List HostAction), s.phase = .failed ∧ s.host = .reset :: rest :=
  ⟨{ failed with host := [.reset] }, [], rfl, rfl⟩

theorem witness_StepRunsTheIssuedCommand :
    (∃ (s : State) (rest : List HostAction) (bytes : List Byte) (i : Instr),
      s.host = .frame bytes :: rest ∧ decode bytes = .ok i) ∧
    (∃ (s : State) (rest : List HostAction) (i : Instr), s.host = .command i :: rest ∧ i.WellFormed) :=
  ⟨⟨{ State.reset with host := [.frame [0x03, 0xD0, 0xEE, 0x07, 0x00]] }, [], _, .temp 519888, rfl, by decide⟩,
   ⟨{ State.reset with host := [.command (.temp 519888)] }, [], .temp 519888, rfl, by decide⟩⟩

/-- At both ends of the reserved codes, in `EMPTY` and in `FAILED`, as a frame and as a command. -/
theorem witness_NoCommandIsAnsweredReservedCommand :
    (∃ s : State, s.host = .frame [0x03] :: [] ∧ decode [0x03] = .error (.wrongLength 3) ∧ s.phase ≠ .failed) ∧
    (∃ s : State, s.host = .frame [0x00] :: [] ∧ decode [0x00] = .error (.reservedCode 0) ∧ s.phase = .failed) ∧
    (∀ code ∈ [(0 : Byte), 6, 255], ∃ s t : State, s.host = .reservedCode code :: [] ∧ s.phase ≠ .failed ∧
      t.host = .reservedCode code :: [] ∧ t.phase = .failed ∧ (code.toNat = 0 ∨ 6 ≤ code.toNat)) :=
  ⟨⟨{ State.reset with host := [.frame [0x03]] }, rfl, by decide, by decide⟩,
   ⟨{ failed with host := [.frame [0x00]] }, rfl, by decide, rfl⟩,
   fun code hc => ⟨{ State.reset with host := [.reservedCode code] }, { failed with host := [.reservedCode code] }, rfl,
     by simp [State.reset], rfl, rfl, by revert code; decide⟩⟩

theorem witness_EmptyFrameIsAnsweredReservedCommand :
    ∃ s : State, s.host = .frame [] :: [] ∧ s.phase ≠ .failed :=
  ⟨{ State.reset with host := [.frame []] }, rfl, by decide⟩

theorem witness_NoActionLeavesTheStateAlone : State.reset.host = [] := rfl

theorem witness_ReservedCodesAreTheOthers :
    ((0 : Byte).toNat = 0 ∧ 6 ≤ (6 : Byte).toNat ∧ 6 ≤ (255 : Byte).toNat) ∧
    ¬ ((1 : Byte).toNat = 0 ∨ 6 ≤ (1 : Byte).toNat) ∧ ¬ ((5 : Byte).toNat = 0 ∨ 6 ≤ (5 : Byte).toNat) := by decide

theorem witness_DecodeInvertsEncode :
    Instr.WellFormed (.caldec (List.replicate 255 0xFF) []) ∧ Instr.WellFormed (.press 0xFFFFF 0x80000000) ∧
    Instr.WellFormed (.hum 0xFFFF 0xFFFFFFFF) ∧ Instr.WellFormed (.temp 0xFFFFF) ∧
    Instr.WellFormed (.unpack #v[255, 255, 255, 255, 255, 255, 255, 255]) := by decide +kernel

theorem witness_OnlyItsFrameSpellsACommand : decode [0x01, 0x00, 0x00] = .ok (.caldec [] []) := by decide

theorem witness_CaldecLoadsTheDecodedSet : State.reset.phase = .empty := rfl

/-- One byte short and one byte long, on either block (V18). -/
theorem witness_CaldecFaultsInOrder :
    failed.phase = .failed ∧ (ready setA .binary64).phase = .ready ∧ State.reset.phase = .empty ∧
    ((List.replicate 24 (0 : Byte)).length ≠ 25 ∨ (List.replicate 7 (0 : Byte)).length ≠ 7) ∧
    ((List.replicate 25 (0 : Byte)).length ≠ 25 ∨ (List.replicate 8 (0 : Byte)).length ≠ 7) := by decide

theorem witness_PackedFieldsInterleaveTheSharedByte :
    (0xFD : Byte) ≠ 0x2D ∧ (0xFD : Byte).toNat % 16 = (0x2D : Byte).toNat % 16 ∧
    (0x20 : Byte) ≠ 0x2D ∧ (0x20 : Byte).toNat / 16 = (0x2D : Byte).toNat / 16 := by decide

theorem witness_UnpackAnswersTheRawSample :
    State.reset.phase ≠ .failed ∧ (ready setA .exact).phase ≠ .failed ∧ failed.phase = .failed := by decide

theorem witness_UnpackDiscardsTwoNibblesAndIsOnto :
    (0xCF : Byte).toNat / 16 = (0xC0 : Byte).toNat / 16 ∧ (0x0A : Byte).toNat / 16 = (0x00 : Byte).toNat / 16 := by decide

/-- `READY` with coefficients, in each of the three formats: for TEMP, PRESS and HUM. -/
theorem witness_ready :
    ∀ fmt ∈ [Fmt.exact, .binary64, .binary32],
      (ready setA fmt).phase = .ready ∧ (ready setA fmt).cal = some setA ∧ (ready setA fmt).fmt = fmt := by decide

theorem witness_TempAnswersTheOperationList : (ready setA .binary64).phase = .ready ∧ (ready setA .binary64).cal = some setA :=
  ⟨rfl, rfl⟩

/-- V20 has a positive sum, V23 a negative one, V24 a zero one. -/
theorem witness_TempExactClosedForm :
    ((ready setA .exact).phase = .ready ∧ (ready setA .exact).cal = some setA ∧ (ready setA .exact).fmt = .exact) ∧
    0 ≤ ((519888 : Rat) / 16384 - 27504 / 1024) * 26435 + ((519888 : Rat) / 131072 - 27504 / 8192) ^ 2 * (-1000) ∧
    ((400000 : Rat) / 16384 - 27504 / 1024) * 26435 + ((400000 : Rat) / 131072 - 27504 / 8192) ^ 2 * (-1000) < 0 ∧
    ((440064 : Rat) / 16384 - 27504 / 1024) * 26435 + ((440064 : Rat) / 131072 - 27504 / 8192) ^ 2 * (-1000) = 0 := by
  refine ⟨⟨rfl, rfl, rfl⟩, ?_, ?_, ?_⟩ <;> norm_num

theorem witness_TempFineStaysInRange : (ready setA .binary32).phase = .ready ∧ (ready setA .binary32).cal = some setA :=
  ⟨rfl, rfl⟩

theorem witness_TempIsZeroAtItsCorners :
    (((440064 : BitVec 20).toNat : Int) = 16 * setA.int .T1) ∧
    ({ setA with T2 := 0, T3 := 0 } : Coefs).int .T2 = 0 ∧ ({ setA with T2 := 0, T3 := 0 } : Coefs).int .T3 = 0 := by decide

theorem witness_PressAnswersTheOperationList : (ready setA .binary32).phase = .ready ∧ (ready setA .binary32).cal = some setA :=
  ⟨rfl, rfl⟩

theorem witness_PressExactFormula :
    (ready setA .exact).phase = .ready ∧ (ready setA .exact).cal = some setA ∧ (ready setA .exact).fmt = .exact :=
  ⟨rfl, rfl, rfl⟩

/-- V26: the guard fires at 1176576 with P2 = -32768 and P3 = 0, and not beside it. -/
theorem witness_PressGuardFiresExactly :
    (((0 : Rat) * ((1176576 : Rat) / 2 - 64000) ^ 2 / 2 ^ 19 + (-32768) * ((1176576 : Rat) / 2 - 64000)) / 2 ^ 19 = -32768) ∧
    (((0 : Rat) * ((1176577 : Rat) / 2 - 64000) ^ 2 / 2 ^ 19 + (-32768) * ((1176577 : Rat) / 2 - 64000)) / 2 ^ 19 ≠ -32768) := by
  constructor <;> norm_num

theorem witness_PressGuardFiresInFloatingPoint :
    (pressSlope (ieeeSys FloatFormat.binary32 Number.binary32) { setA with P2 := 0x8000, P3 := 0 }
      (pressBase (ieeeSys FloatFormat.binary32 Number.binary32) 1176576)).value = some (-32768) ∧
    (FloatFormat.binary32 = .binary64 ∨ FloatFormat.binary32 = .binary32) := by decide +kernel

theorem witness_PressIsPlusZeroWhenP1IsZero :
    (ready { setA with P1 := 0 } .binary64).phase = .ready ∧
    (ready { setA with P1 := 0 } .binary64).cal = some { setA with P1 := 0 } ∧ ({ setA with P1 := 0 } : Coefs).int .P1 = 0 := by
  decide

theorem witness_PressIsFiniteOrAnInfinityOfBinary32 :
    (ready setA .binary64).phase = .ready ∧ (ready setA .binary64).cal = some setA ∧ (ready setA .binary64).fmt ≠ .binary32 := by
  decide

theorem witness_HumAnswersTheOperationList : (ready setA .binary64).phase = .ready ∧ (ready setA .binary64).cal = some setA :=
  ⟨rfl, rfl⟩

theorem witness_HumExactFormula :
    (ready setA .exact).phase = .ready ∧ (ready setA .exact).cal = some setA ∧ (ready setA .exact).fmt = .exact :=
  ⟨rfl, rfl, rfl⟩

theorem witness_HumPercentIsBetween0And100 : (ready setA .binary32).phase = .ready ∧ (ready setA .binary32).cal = some setA :=
  ⟨rfl, rfl⟩

theorem witness_HumIsZeroWhenH2IsZero :
    (ready { setA with H2 := 0 } .binary64).phase = .ready ∧
    (ready { setA with H2 := 0 } .binary64).cal = some { setA with H2 := 0 } ∧ ({ setA with H2 := 0 } : Coefs).int .H2 = 0 := by
  decide

/-- 0, the smallest positive and the largest value of `binary32`, and 3 as a divisor. -/
theorem witness_IeeePrimitivesRoundOnce :
    FloatFormat.binary32.Representable 0 ∧ FloatFormat.binary32.Representable (pow2 (-149)) ∧
    FloatFormat.binary32.Representable (16777215 * pow2 104) ∧ FloatFormat.binary32.Representable 3 ∧ (3 : Rat) ≠ 0 :=
  ⟨⟨by decide +kernel, 0, 0, by decide, by decide, by decide +kernel⟩,
   ⟨by decide +kernel, 1, -149, by decide, by decide, by decide +kernel⟩,
   ⟨by decide +kernel, 16777215, 104, by decide, by decide, by decide +kernel⟩,
   ⟨by decide +kernel, 3, 0, by decide, by decide, by decide +kernel⟩, by norm_num⟩

theorem witness_LiteralsAndOperandsAreExact :
    |(-(2 ^ 24) : Int)| ≤ 2 ^ 24 ∧ |(-(2 ^ 31) : Int)| ≤ 2 ^ 31 ∧ (2147483648 : Nat) ∈ [1, 2147483648] := by decide

theorem witness_CompensationNeedsCalibration :
    ((∃ r, Instr.temp 519888 = .temp r) ∧ (∃ r x, Instr.press 0 0 = .press r x) ∧ (∃ r x, Instr.hum 0 0 = .hum r x)) ∧
    State.reset.phase = .empty :=
  ⟨⟨⟨_, rfl⟩, ⟨_, _, rfl⟩, ⟨_, _, rfl⟩⟩, rfl⟩

theorem witness_FailedSessionAnswersEverythingAlike :
    let s (a : HostAction) : State := { failed with host := [a] }
    (s (.command (.temp 0))).phase = .failed ∧ (s (.command (.temp 0))).host = .command (.temp 0) :: [] ∧
    Instr.WellFormed (.temp 0) ∧ (s (.frame [])).host = .frame [] :: [] ∧
    (s (.reservedCode 6)).host = .reservedCode 6 :: [] ∧ 6 ≤ (6 : Byte).toNat := by decide

theorem witness_SignConversionByThreshold :
    ∃ (buffer : Vector Byte 2) (i : Nat), i + 1 < 2 ∧ buffer = #v[0x00, 0x80] := ⟨_, 0, by decide, rfl⟩

/-- The first fault of a session, and a later one. -/
theorem witness_AFaultFailsTheSession :
    (State.reset.phase ≠ .failed ∧
      got (exec (.temp 0) State.reset) = some (plus (mk .failed 2 none .binary64) ⟨2, 0, none⟩)) ∧
    (failed.phase = .failed ∧ got (exec (.temp 0) failed) = some (plus failed ⟨4, 2, none⟩)) ∧ (2 : BitVec 8) ≠ 0 ∧
    (4 : BitVec 8) ≠ 0 := by decide

theorem witness_EveryCommandAnswersOnce : (got (exec (.temp 0) State.reset)).isSome = true := by decide

/-- Two states with the same coefficients and format and different histories. -/
theorem witness_NoHiddenCaching :
    let s1 := ready setA .binary64
    let s2 := plus (ready setA .binary64) ⟨0, 0, some (.sample 1 2 3)⟩
    (∀ a b, Instr.press 415148 128422 ≠ .caldec a b) ∧ s1 ≠ s2 ∧ s1.phase = .ready ∧ s2.phase = .ready ∧ s1.cal = some setA ∧
    s2.cal = some setA ∧ s1.fmt = s2.fmt :=
  ⟨fun _ _ h => (nomatch h), by decide, rfl, rfl, rfl, rfl, rfl⟩

/-- A frame that spells no command, in a state with a history and more actions to come; and UNPACK in `READY`. -/
theorem witness_NoHiddenState :
    let s : State := { plus (ready setA .binary64) ⟨0, 0, some (.sample 1 2 3)⟩ with host := [.frame [0x06], .reset] }
    s.host = .frame [0x06] :: [.reset] ∧ (got (step s)).isSome = true ∧
    (∃ smp, Instr.unpack #v[0, 0, 0, 0, 0, 0, 0, 0] = .unpack smp) ∧
    (got (exec (.unpack #v[0, 0, 0, 0, 0, 0, 0, 0]) s)).isSome = true :=
  ⟨rfl, by decide, ⟨_, rfl⟩, by decide⟩

/-- CALDEC in `EMPTY`, TEMP in `READY`, anything in `FAILED`: no reset, and a next state. -/
theorem witness_PhaseChangesOnlyAsStated :
    let load : State := { State.reset with host := [.command (.caldec blockA.toList blockB.toList)] }
    let use : State := { ready setA .exact with host := [.frame [0x06]] }
    let late : State := { failed with host := [.frame []] }
    (load.host.head? ≠ some .reset ∧ load.phase = .empty ∧ (got (step load)).map State.phase = some .ready) ∧
    (use.host.head? ≠ some .reset ∧ use.phase = .ready ∧ (got (step use)).map State.phase = some .failed) ∧
    (late.host.head? ≠ some .reset ∧ late.phase = .failed ∧ (got (step late)).map State.phase = some .failed) := by decide

/-- The three clauses: a failed session, a command that does not fail it, and the first fault. -/
theorem witness_ErrIsWrittenByTheFirstFault :
    let late : State := { failed with host := [.command (.temp 0)] }
    let load : State := { State.reset with host := [.command (.caldec blockA.toList blockB.toList)] }
    let first : State := { State.reset with host := [.command (.caldec [] [])] }
    (late.host.head? ≠ some .reset ∧ late.phase = .failed ∧ (got (step late)).isSome = true) ∧
    (load.host.head? ≠ some .reset ∧ load.phase ≠ .failed ∧ (got (step load)).map State.phase = some .ready) ∧
    (first.host.head? ≠ some .reset ∧ first.phase ≠ .failed ∧ (got (step first)).map State.phase = some .failed) := by decide

/-- A run of two steps in `READY` that stays there. -/
theorem witness_StoreIsImmutableInASession :
    let s : State := { ready setA .binary64 with host := [.frame [0x02, 1, 2, 3, 4, 5, 6, 7, 8], .command (.unpack #v[0, 0, 0, 0, 0, 0, 0, 0])] }
    (∀ a ∈ s.host, a ≠ .reset) ∧ s.phase = .ready ∧
    (got (Host.Core.run Sys2Proof.core 2 s)).map State.phase = some .ready := by decide

/-- Two runs from reset, one that goes wrong and one that does not. -/
theorem witness_RunGoesWrongExactlyWhenItFails :
    let bad : State := { State.reset with host := [.command (.temp 0), .command (.hum 0 0)] }
    let good : State := { State.reset with host := [.command (.caldec blockA.toList blockB.toList)] }
    (∀ a ∈ bad.host, a ≠ .reset) ∧ bad.phase ≠ .failed ∧
    (got (Host.Core.run Sys2Proof.core 2 bad)).map State.phase = some .failed ∧
    (∀ a ∈ good.host, a ≠ .reset) ∧ good.phase ≠ .failed ∧
    (got (Host.Core.run Sys2Proof.core 2 good)).map State.phase = some .ready := by decide

theorem witness_CycleIsTheReadingOfTheSample : (ready setA .binary64).phase = .ready ∧ (ready setA .binary64).cal = some setA :=
  ⟨rfl, rfl⟩

theorem witness_CycleStopsAtAFault : State.reset.phase = .empty ∧ failed.phase = .failed := ⟨rfl, rfl⟩

/-- Reset, `READY` and `FAILED` keep the session invariant, and a step from each answers a next state. -/
theorem witness_StepKeepsTheSessionInvariant :
    SessionInv State.reset ∧ SessionInv (ready setA .binary64) ∧ SessionInv failed ∧
    (got (step { ready setA .binary64 with host := [.reset] })).isSome = true ∧
    (got (step { failed with host := [.reset] })).isSome = true ∧
    (got (step { State.reset with host := [.command (.temp 0)] })).isSome = true := by decide

theorem witness_StepKeepsTheResponsesInFormat :
    ResponsesInv (plus State.reset ⟨0, 0, some (.sample 1 2 3)⟩) ∧
    (got (step { plus State.reset ⟨0, 0, some (.sample 1 2 3)⟩ with host := [.command (.temp 0)] })).isSome = true :=
  ⟨fun r hr => by
    obtain rfl : r = ⟨0, 0, some (.sample 1 2 3)⟩ := by simpa [plus, State.reset] using hr
    exact ⟨by decide, fun p hp => by cases hp; trivial⟩, by decide⟩

theorem witness_BlockNeverStops :
    let s : State := { ready setA .binary64 with host := [.command (.temp 0), .reservedCode 6, .frame [], .reset] }
    SessionInv s ∧ (∀ i, HostAction.command i ∈ s.host → i.WellFormed) ∧
    (∀ code, HostAction.reservedCode code ∈ s.host → opcodeOf code = none) := by
  refine ⟨by decide, fun i hi => ?_, fun code hc => ?_⟩
  · obtain rfl : i = .temp 0 := by simpa using hi
    decide
  · obtain rfl : code = 6 := by simpa using hc
    decide

end Sys2Proof.Tests
end

section
/-! O33. Rounding to a format meets `FloatFormat.Rounds`: first the tie rule and the overflow bound, on which
Laws/Rounding.lean says nothing, then each IEEE primitive as one rounding of its exact result. -/

namespace Sys2Proof

/-! ### Ties -/

/-- Of two equally near integers the even one is taken (GK4). -/
theorem roundHalfEven_even_of_tie {x : Rat} (hx : 0 ≤ x) (h : |x - roundHalfEven x| = 1 / 2) :
    ∃ n, roundHalfEven x = 2 * n := by
  obtain ⟨q, r, rfl, hr0, hr1, ⟨hq, hc⟩ | ⟨hq, hc⟩⟩ := roundHalfEven_cases hx
  · rw [hq, add_sub_cancel_left, abs_of_nonneg hr0] at h
    rcases hc with hc | ⟨-, hpar⟩
    · exact absurd h hc.ne
    · exact ⟨q / 2, by omega⟩
  · rcases hc with hc | ⟨-, hpar⟩
    · rw [hq, abs_of_neg (by push_cast; linarith)] at h
      push_cast at h; linarith
    · exact ⟨q / 2 + 1, by omega⟩

/-- An odd integer and a half is rounded up. -/
theorem roundHalfEven_odd_add_half (n : Nat) : roundHalfEven (((2 * n + 1 : Nat) : Rat) + 1 / 2) = 2 * n + 2 := by
  have hx : (0 : Rat) ≤ ((2 * n + 1 : Nat) : Rat) + 1 / 2 := by positivity
  have hlo : 2 * n + 1 ≤ roundHalfEven (((2 * n + 1 : Nat) : Rat) + 1 / 2) := natCast_le_roundHalfEven (by norm_num)
  have hhi : roundHalfEven (((2 * n + 1 : Nat) : Rat) + 1 / 2) ≤ 2 * n + 2 :=
    roundHalfEven_le_natCast hx (by push_cast; linarith)
  rcases hlo.eq_or_lt with h | h
  · obtain ⟨k, hk⟩ := roundHalfEven_even_of_tie hx (by rw [← h, add_sub_cancel_left]; norm_num)
    omega
  · omega

namespace FloatFormat

variable {f : FloatFormat}

/-- A value half of its last place away from its rounding is rounded to an even multiple of that place (GK4). -/
theorem roundMag_even_of_tie {a : Rat} (ha : 0 < a) (h : |a - f.roundMag a| = pow2 (f.ulpExp a) / 2) :
    ∃ n : Nat, f.roundMag a = ((2 * n : Nat) : Rat) * pow2 (f.ulpExp a) := by
  have hp := pow2_pos (f.ulpExp a)
  rw [f.roundMag_of_pos ha] at h ⊢
  have htie : |a / pow2 (f.ulpExp a) - roundHalfEven (a / pow2 (f.ulpExp a))| = 1 / 2 := by
    rw [← mul_left_inj' hp.ne', ← abs_of_pos hp, ← abs_mul, abs_of_pos hp, sub_mul, div_mul_cancel₀ _ hp.ne', h]
    ring
  obtain ⟨n, hn⟩ := roundHalfEven_even_of_tie (div_nonneg ha.le hp.le) htie
  exact ⟨n, by rw [hn]⟩

/-! ### The overflow bound -/

/-- The overflow bound is half of a last place below the power of two at the top (GK4). -/
theorem overflow_eq_sub_half (f : FloatFormat) : f.overflow = pow2 f.eTop - pow2 (f.eTop - 1 - f.fracBits) / 2 := by
  rw [overflow, pow2_half_add_half (f.eTop - 1 - f.fracBits),
    show f.eTop - 1 - f.fracBits - 1 = f.eTop - f.fracBits - 2 by ring]
  ring

/-- In units of the last place the overflow bound is an odd significand and a half. -/
theorem overflow_eq_odd_add_half (f : FloatFormat) :
    f.overflow = (((2 * (2 ^ f.fracBits - 1) + 1 : Nat) : Rat) + 1 / 2) * pow2 (f.eTop - 1 - f.fracBits) := by
  obtain ⟨n, hn⟩ : ∃ n, 2 ^ f.fracBits = n + 1 := ⟨2 ^ f.fracBits - 1, by have := Nat.two_pow_pos f.fracBits; omega⟩
  have htop : pow2 f.eTop = ((2 ^ f.fracBits : Nat) : Rat) * (2 * pow2 (f.eTop - 1 - f.fracBits)) := by
    rw [two_mul, mul_add, ← pow2_ofNat, ← pow2_add, pow2_half_add_half]; congr 2 <;> ring
  rw [overflow_eq_sub_half, htop, hn, Nat.add_sub_cancel]
  push_cast
  ring

theorem overflow_pos (f : FloatFormat) : 0 < f.overflow := by
  rw [overflow_eq_odd_add_half]; exact mul_pos (by positivity) (pow2_pos _)

theorem ulpExp_overflow (hf : f.AtLeast32) : f.ulpExp f.overflow = f.eTop - 1 - f.fracBits := by
  have h1 := hf.eMin_le
  have h2 := hf.le_eTop
  have hexp : exponentOf f.overflow = f.eTop - 1 := by
    refine exponentOf_eq ?_ ?_
    · have := pow2_half_add_half f.eTop
      have := pow2_le_pow2 (show f.eTop - f.fracBits - 2 ≤ f.eTop - 1 by omega)
      unfold overflow; linarith
    · have := pow2_pos (f.eTop - f.fracBits - 2)
      rw [sub_add_cancel]; unfold overflow; linarith
  rw [ulpExp, hexp, max_eq_left (by omega)]

/-- At the overflow bound the tie goes to the even significand, which is the power of two at the top. -/
theorem roundMag_overflow (hf : f.AtLeast32) : f.roundMag f.overflow = pow2 f.eTop := by
  rw [f.roundMag_of_pos f.overflow_pos, ulpExp_overflow hf]
  conv_lhs => rw [overflow_eq_odd_add_half, mul_div_cancel_right₀ _ (pow2_pos _).ne', roundHalfEven_odd_add_half]
  have hpos := Nat.two_pow_pos f.fracBits
  rw [show 2 * (2 ^ f.fracBits - 1) + 2 = 2 ^ (f.fracBits + 1) by omega, ← pow2_ofNat, ← pow2_add]
  congr 1; push_cast; ring

/-- The largest finite magnitude of the format: half of a last place below the overflow bound. -/
theorem onGrid_overflow_sub_half (hf : f.AtLeast32) : f.OnGrid (f.overflow - pow2 (f.eTop - 1 - f.fracBits) / 2) := by
  have h1 := hf.eMin_le
  have h2 := hf.le_eTop
  have hpos := Nat.two_pow_pos f.fracBits
  refine ⟨2 * (2 ^ f.fracBits - 1) + 1, f.eTop - 1 - f.fracBits, by omega, by omega, ?_⟩
  rw [overflow_eq_odd_add_half]; ring

/-- A magnitude is rounded beyond every finite value exactly from the overflow bound on (GK4). -/
theorem pow2_eTop_le_roundMag_iff (hf : f.AtLeast32) {a : Rat} (ha : 0 ≤ a) :
    pow2 f.eTop ≤ f.roundMag a ↔ f.overflow ≤ a := by
  constructor
  · intro h
    by_contra hlt
    push Not at hlt
    have hgrid := onGrid_overflow_sub_half hf
    have hhalf := f.overflow_eq_sub_half
    have hp := pow2_pos (f.eTop - 1 - f.fracBits)
    rcases le_total a (f.overflow - pow2 (f.eTop - 1 - f.fracBits) / 2) with hle | hge
    · linarith [f.roundMag_le_of_onGrid ha hgrid hle]
    · have hnear := f.roundMag_nearest ha hgrid
      rw [abs_of_nonneg (sub_nonneg.mpr hge), abs_of_neg (by linarith)] at hnear
      linarith
  · intro h
    rw [← roundMag_overflow hf]
    exact f.roundMag_mono f.overflow_pos.le h

end FloatFormat

/-! ### A sign and a magnitude -/

theorem abs_signed (s : Bool) {m : Rat} (hm : 0 ≤ m) : |signed s m| = m := by
  cases s <;> simp [signed, abs_of_nonneg hm]

/-- The sign of a value that is not zero is read off the value. -/
theorem eq_decide_signed_neg {s : Bool} {m : Rat} (hm : 0 ≤ m) (h : signed s m ≠ 0) : s = decide (signed s m < 0) := by
  have hpos : 0 < m := lt_of_le_of_ne hm (Ne.symm (mt signed_eq_zero.mpr h))
  cases s <;> simp [signed, hm, hpos]

theorem signed_decide_neg_abs (q : Rat) : signed (decide (q < 0)) |q| = q := by
  by_cases h : q < 0
  · simp [signed, h, abs_of_neg h]
  · simp [signed, h, abs_of_nonneg (not_lt.mp h)]

theorem signed_decide_neg_natAbs (i : Int) : signed (decide (i < 0)) (i.natAbs : Rat) = i := by
  have h := signed_decide_neg_abs (i : Rat)
  rw [Nat.cast_natAbs, Int.cast_abs]
  simpa only [Int.cast_lt_zero] using h

theorem signed_not (s : Bool) (m : Rat) : signed (!s) m = -signed s m := by cases s <;> simp [signed]

theorem signed_mul_signed (s t : Bool) (x y : Rat) : signed s x * signed t y = signed (s != t) (x * y) := by
  cases s <;> cases t <;> simp [signed]

theorem signed_div_signed (s t : Bool) (x y : Rat) : signed s x / signed t y = signed (s != t) (x / y) := by
  cases s <;> cases t <;> simp [signed, neg_div, div_neg]

/-! ### Each primitive is one rounding -/

variable {f : FloatFormat}

/-- A sign and a magnitude are rounded as the spec says (R11, GK4). -/
theorem FloatFormat.round_rounds (hf : f.AtLeast32) (neg : Bool) {m : Rat} (hm : 0 ≤ m) :
    f.Rounds (signed neg m) (f.round neg m) := by
  have hiff := FloatFormat.pow2_eTop_le_roundMag_iff hf hm
  by_cases hov : f.overflow ≤ m
  · rw [FloatFormat.round, if_pos (hiff.mpr hov)]
    have hne : signed neg m ≠ 0 := fun h => (f.overflow_pos.trans_le hov).ne' (signed_eq_zero.mp h)
    exact ⟨by rwa [abs_signed neg hm], eq_decide_signed_neg hm hne⟩
  · have hfin : f.roundMag m < pow2 f.eTop := not_le.mp (mt hiff.mp hov)
    rw [f.round_of_lt hfin]
    unfold FloatFormat.Rounds
    rw [abs_signed neg hm]
    refine ⟨not_le.mp hov, ⟨hfin, f.roundMag_onGrid m hm⟩, eq_decide_signed_neg hm,
      fun w hw => f.roundMag_nearest hm hw.2, fun hne htie => ?_⟩
    have hpos : 0 < m := lt_of_le_of_ne hm (Ne.symm (mt signed_eq_zero.mpr hne))
    exact FloatFormat.roundMag_even_of_tie hpos htie

namespace Ieee

theorem ofInt_rounds (hf : f.AtLeast32) (i : Int) : f.Rounds i (ofInt f i) := by
  have hround := FloatFormat.round_rounds hf (decide (i < 0)) (Nat.cast_nonneg i.natAbs)
  rwa [signed_decide_neg_natAbs] at hround

theorem fadd_rounds (hf : f.AtLeast32) (s t : Bool) (x y : Rat) :
    f.Rounds (signed s x + signed t y) (fadd f (.fin s x) (.fin t y)) := by
  simp only [fadd]
  split
  · next h =>
    have hround := FloatFormat.round_rounds hf (s && t) le_rfl
    rw [signed_zero, f.round_of_representable _ (inFormat_zero (s && t))] at hround
    rwa [h]
  · have hround := FloatFormat.round_rounds hf (decide (signed s x + signed t y < 0)) (abs_nonneg (signed s x + signed t y))
    rwa [signed_decide_neg_abs] at hround

theorem fsub_rounds (hf : f.AtLeast32) (s t : Bool) (x y : Rat) :
    f.Rounds (signed s x - signed t y) (fsub f (.fin s x) (.fin t y)) := by
  rw [sub_eq_add_neg, ← signed_not]
  exact fadd_rounds hf s (!t) x y

theorem fmul_rounds (hf : f.AtLeast32) (s t : Bool) {x y : Rat} (hx : 0 ≤ x) (hy : 0 ≤ y) :
    f.Rounds (signed s x * signed t y) (fmul f (.fin s x) (.fin t y)) := by
  rw [signed_mul_signed]
  exact FloatFormat.round_rounds hf _ (mul_nonneg hx hy)

theorem fdiv_rounds (hf : f.AtLeast32) (s t : Bool) {x y : Rat} (hx : 0 ≤ x) (hy : 0 ≤ y) (hy0 : y ≠ 0) :
    f.Rounds (signed s x / signed t y) (fdiv f (.fin s x) (.fin t y)) := by
  rw [signed_div_signed, fdiv, if_neg hy0]
  exact FloatFormat.round_rounds hf _ (div_nonneg hx hy)

end Ieee

/-- The two formats of the block are wide enough for the lemmas over `FloatFormat.AtLeast32`. -/
theorem FloatFormat.atLeast32_of_eq (h : f = .binary64 ∨ f = .binary32) : f.AtLeast32 := by
  rcases h with rfl | rfl
  · exact FloatFormat.atLeast32_binary64
  · exact FloatFormat.atLeast32_binary32

/-- Settles O33: every primitive on finite operands is `FloatFormat.round` of the sign and magnitude of the exact result. -/
theorem ieeePrimitivesRoundOnce : Obligations.IeeePrimitivesRoundOnce := by
  intro f hf
  have hf := FloatFormat.atLeast32_of_eq hf
  refine ⟨Ieee.ofInt_rounds hf, fun s t x y hx hy => ?_⟩
  have hx0 := Ieee.nonneg_of_representable hx
  have hy0 := Ieee.nonneg_of_representable hy
  exact ⟨Ieee.fadd_rounds hf s t x y, Ieee.fsub_rounds hf s t x y, Ieee.fmul_rounds hf s t hx0 hy0,
    Ieee.fdiv_rounds hf s t hx0 hy0⟩

end Sys2Proof
end

section
/-! O34. Literals and integer operands are values of the formats (R12). -/

namespace Sys2Proof

/-- The value of an integer whose magnitude the format has is the integer. -/
theorem Ieee.value_ofInt {f : FloatFormat} {i : Int} (h : f.Representable (i.natAbs : Rat)) :
    (Ieee.ofInt f i).value = some (i : Rat) := by
  rw [Ieee.ofInt_of_representable h, Ieee.value, signed_decide_neg_natAbs]

/-- `binary64` has every integer of at most 53 bits. -/
theorem FloatFormat.representable_natCast_binary64 {n : Nat} (h : n < 2 ^ 53) : FloatFormat.binary64.Representable n :=
  ⟨(natCast_le_pow2 h.le).trans_lt (pow2_lt_pow2 (by decide)), FloatFormat.binary64.onGrid_natCast h (by decide)⟩

/-- A literal of the formulas is at most 2^24 or one of the two powers of two above it, so both formats have it (R12). -/
theorem FloatFormat.AtLeast32.representable_literal {f : FloatFormat} (hf : f.AtLeast32) {n : Nat}
    (h : n ≤ 2 ^ 24 ∨ n = 2 ^ 26 ∨ n = 2 ^ 31) : f.Representable n := by
  rcases h with h | rfl | rfl
  · exact hf.representable_natCast h
  · rw [← pow2_ofNat]; exact hf.representable_pow2 (by decide) (by decide)
  · rw [← pow2_ofNat]; exact hf.representable_pow2 (by decide) (by decide)

/-- Settles O34: the magnitudes are values of the format, and such a magnitude is rounded to itself. -/
theorem literalsAndOperandsAreExact : Obligations.LiteralsAndOperandsAreExact := by
  refine ⟨fun n hn f hf => ?_, fun i hi => ?_, fun i hi => ?_⟩
  · have hlit : n ≤ 2 ^ 24 ∨ n = 2 ^ 26 ∨ n = 2 ^ 31 := by revert n; decide
    exact Ieee.ofInt_natCast ((FloatFormat.atLeast32_of_eq hf).representable_literal hlit)
  · rw [Int.abs_eq_natAbs] at hi
    exact Ieee.value_ofInt (FloatFormat.atLeast32_binary32.representable_natCast (by omega))
  · rw [Int.abs_eq_natAbs] at hi
    exact Ieee.value_ofInt (FloatFormat.representable_natCast_binary64 (by omega))

end Sys2Proof
end

section
/-! O38. What each shape of `ExecShape` adds to the responses. -/

namespace Sys2Proof.Machine

/-- A response `OK` with a payload is of the first form of R37. -/
theorem Response.wellFormed_ok (p : Payload) : Response.WellFormed ⟨0, 0, some p⟩ := .inl ⟨rfl, rfl, rfl⟩

/-- A response with the code of a fault and no payload is of the second form of R37. -/
theorem Response.wellFormed_fault {code : BitVec 8} (h : code ≠ 0) (info : BitVec 8) :
    Response.WellFormed ⟨code, info, none⟩ := .inr ⟨h, rfl⟩

/-- Whatever a command does, it gives one well-formed response more and leaves alone what is outside the block (R7, R37). -/
theorem ExecShape.answers_once {s t : State} (h : ExecShape s t) :
    ∃ r : Response, t.responses = s.responses ++ [r] ∧ r.WellFormed ∧ t.fmt = s.fmt ∧ t.host = s.host := by
  cases h with
  | sessionFailed => exact ⟨_, rfl, Response.wellFormed_fault (by decide) _, rfl, rfl⟩
  | fails _ code info hcode =>
    have hne : code ≠ 0 := by rcases hcode with rfl | rfl | rfl | rfl <;> decide
    exact ⟨_, rfl, Response.wellFormed_fault hne info, rfl, rfl⟩
  | loads => exact ⟨_, rfl, Response.wellFormed_ok _, rfl, rfl⟩
  | unpacks => exact ⟨_, rfl, Response.wellFormed_ok _, rfl, rfl⟩
  | temperature => exact ⟨_, rfl, Response.wellFormed_ok _, rfl, rfl⟩
  | pressure => exact ⟨_, rfl, Response.wellFormed_ok _, rfl, rfl⟩
  | humidity => exact ⟨_, rfl, Response.wellFormed_ok _, rfl, rfl⟩

/-- Settles O38, by the inversion of `exec`. -/
theorem everyCommandAnswersOnce : Obligations.EveryCommandAnswersOnce :=
  fun _ _ _ h => (exec_shape h).answers_once

end Sys2Proof.Machine
end

section
/-! O3 and O6. What a step does, by the host's next action. -/

namespace Sys2Proof.Machine

/-- With no action of the host left, the block does not move (log entry 10). -/
theorem step_of_host_nil {s : State} (h : s.host = []) : step s = .next s := by
  simp only [step, takeNext, h]

/-- A step is the host's next action, taken whole (R7). -/
theorem step_of_host_cons {s : State} {a : HostAction} {rest : List HostAction} (h : s.host = a :: rest) :
    step s = present a (s.withHost rest) := by
  simp only [step, takeNext, h]

/-- A frame that spells a command is that command (R44). -/
theorem presentFrame_of_decode {bytes : List Byte} {i : Instr} (h : decode bytes = .ok i) (s : State) :
    presentFrame bytes s = exec i s := by
  simp only [presentFrame, h]

/-- An abstract command that a host can issue is run (R37). -/
theorem presentCommand_of_wellFormed {i : Instr} (h : i.WellFormed) (s : State) : presentCommand i s = exec i s :=
  if_pos h

/-- Settles O3: both forms of the command are presented as `exec` of it. -/
theorem stepRunsTheIssuedCommand : Obligations.StepRunsTheIssuedCommand := by
  refine fun s rest i => ⟨fun bytes hhost hdec => ?_, fun hhost hwf => ?_⟩
  · exact (step_of_host_cons hhost).trans (presentFrame_of_decode hdec _)
  · exact (step_of_host_cons hhost).trans (presentCommand_of_wellFormed hwf _)

/-- Settles O6, by the first of the two cases of a step. -/
theorem noActionLeavesTheStateAlone : Obligations.NoActionLeavesTheStateAlone :=
  fun _ => step_of_host_nil

end Sys2Proof.Machine
end

section
/-! O40, O41, O42 and O48. How a step changes `PHASE`, `ERR` and the coefficient registers (R16, R17, R18). -/

namespace Sys2Proof.Machine

/-- What a step that is not a reset does to `PHASE`, `ERR` and the coefficient registers. -/
inductive SessionStep (s t : State) : Prop where
  /-- It leaves all three as they are. -/
  | keeps (hphase : t.phase = s.phase) (herr : t.err = s.err) (hcal : t.cal = s.cal)
  /-- The first fault of the session (R86). -/
  | fails (h : s.phase ≠ .failed) (hphase : t.phase = .failed) (hcal : t.cal = none)
      (hcode : t.err = 1 ∨ t.err = 2 ∨ t.err = 3 ∨ t.err = 5)
      (hresp : ∃ info, t.responses = s.responses ++ [⟨t.err, info, none⟩])
  /-- CALDEC in `EMPTY` (R51). -/
  | loads (h : s.phase = .empty) (hphase : t.phase = .ready) (herr : t.err = s.err)
      (hload : ∃ c, t.cal = some c ∧ t.responses = s.responses ++ [⟨0, 0, some (.coefficients c)⟩])

/-- The seven shapes of a command's next state differ in three ways only where the session is concerned. -/
theorem ExecShape.sessionStep {s t : State} {later : List HostAction} (h : ExecShape (s.withHost later) t) :
    SessionStep s t := by
  cases h with
  | sessionFailed => exact .keeps rfl rfl rfl
  | fails hp code info hcode => exact .fails hp rfl rfl hcode ⟨info, rfl⟩
  | loads hp c => exact .loads hp rfl rfl ⟨c, rfl, rfl⟩
  | unpacks => exact .keeps rfl rfl rfl
  | temperature => exact .keeps rfl rfl rfl
  | pressure => exact .keeps rfl rfl rfl
  | humidity => exact .keeps rfl rfl rfl

/-- One step, inverted for the session: a reset, or one of the three ways of `SessionStep`. -/
theorem step_session_cases {s t : State} (h : step s = .next t) :
    (s.host.head? = some .reset ∧ t.phase = .empty ∧ t.err = 0 ∧ t.cal = none) ∨ SessionStep s t := by
  rcases step_cases h with ⟨-, rfl⟩ | ⟨a, rest, hhost, ⟨rfl, rfl⟩ | ⟨-, hshape⟩⟩
  · exact .inr (.keeps rfl rfl rfl)
  · exact .inl ⟨by simp [hhost], rfl, rfl, rfl⟩
  · exact .inr hshape.sessionStep

theorem sessionStep_of_step {s t : State} (h : step s = .next t) (hr : s.host.head? ≠ some .reset) : SessionStep s t :=
  (step_session_cases h).resolve_left fun hreset => hr hreset.1

theorem SessionStep.failed_stays {s t : State} (h : SessionStep s t) (hs : s.phase = .failed) : t.phase = .failed := by
  cases h with
  | keeps hphase => rw [hphase, hs]
  | fails _ hphase => exact hphase
  | loads hempty => simp [hs] at hempty

/-- From `READY` the session stays with its coefficients, or fails. -/
theorem SessionStep.ready_cases {s t : State} (h : SessionStep s t) (hs : s.phase = .ready) :
    (t.phase = .ready ∧ t.cal = s.cal) ∨ t.phase = .failed := by
  cases h with
  | keeps hphase _ hcal => exact .inl ⟨hphase.trans hs, hcal⟩
  | fails _ hphase => exact .inr hphase
  | loads hempty => simp [hs] at hempty

/-- What every run without a reset keeps: `FAILED`, and the coefficients of a session that is `READY` at its end. -/
def KeepsStore (s t : State) : Prop :=
  (s.phase = .failed → t.phase = .failed) ∧ (s.phase = .ready → t.phase = .ready → t.cal = s.cal)

theorem KeepsStore.refl (s : State) : KeepsStore s s := ⟨id, fun _ _ => rfl⟩

theorem SessionStep.keepsStore_trans {s t u : State} (h : SessionStep s t) (hrun : KeepsStore t u) : KeepsStore s u := by
  obtain ⟨hfailed, hready⟩ := hrun
  refine ⟨fun hs => hfailed (h.failed_stays hs), fun hs hu => ?_⟩
  rcases h.ready_cases hs with ⟨ht, hcal⟩ | ht
  · exact (hready ht hu).trans hcal
  · simp [hfailed ht] at hu

/-- Settles O42, by induction over the run. -/
theorem storeIsImmutableInASession : Obligations.StoreIsImmutableInASession := by
  intro k s t hn hrun
  refine (run_induction KeepsStore KeepsStore.refl (fun s t u hn hstep => ?_) k s t hn hrun).2
  exact (sessionStep_of_step hstep fun hr => hn _ (List.mem_of_head? hr) rfl).keepsStore_trans

theorem SessionStep.keeps_sessionInv {s t : State} (h : SessionStep s t) (hs : SessionInv s) : SessionInv t := by
  cases h with
  | keeps hphase herr hcal => simpa only [SessionInv, hphase, herr, hcal] using hs
  | fails _ hphase hcal hcode => exact ⟨by simp [hphase, hcal], fun hne => absurd hphase hne, fun _ => hcode⟩
  | loads hempty hphase herr hload =>
    obtain ⟨-, herr0, -⟩ := hs
    obtain ⟨c, hcal, -⟩ := hload
    exact ⟨by simp [hphase, hcal], fun _ => herr.trans (herr0 (by simp [hempty])), by simp [hphase]⟩

/-- Settles O48, by the inversion of a step. -/
theorem stepKeepsTheSessionInvariant : Obligations.StepKeepsTheSessionInvariant := by
  intro s t hs hstep
  rcases step_session_cases hstep with ⟨-, hphase, herr, hcal⟩ | h
  · simp [SessionInv, hphase, herr, hcal]
  · exact h.keeps_sessionInv hs

/-- Settles O40, by the inversion of a step. -/
theorem phaseChangesOnlyAsStated : Obligations.PhaseChangesOnlyAsStated := by
  intro s t hstep hr
  have h := sessionStep_of_step hstep hr
  refine ⟨h.failed_stays, fun hs => ?_, fun hs ht => ?_⟩
  · rcases h.ready_cases hs with ⟨ht, -⟩ | ht <;> simp [ht]
  · cases h with
    | keeps hphase => simp [hphase, hs] at ht
    | fails _ hphase => simp [hphase] at ht
    | loads _ _ _ hload => exact hload

/-- Settles O41, by the inversion of a step. -/
theorem errIsWrittenByTheFirstFault : Obligations.ErrIsWrittenByTheFirstFault := by
  intro s t hstep hr
  cases sessionStep_of_step hstep hr with
  | keeps hphase herr => exact ⟨fun _ => herr, fun _ _ => herr, fun hs ht => absurd (hphase ▸ ht) hs⟩
  | fails hs hphase _ _ hresp => exact ⟨fun hf => absurd hf hs, fun _ ht => absurd hphase ht, fun _ _ => hresp⟩
  | loads _ hphase herr => exact ⟨fun _ => herr, fun _ _ => herr, by simp [hphase]⟩

end Sys2Proof.Machine
end

section
/-! O1, O44 and O47. The view `STATUS` (R19), and the state after reset (R24). -/

namespace Sys2Proof.Machine

/-- Settles O44: each field lies within one byte of the view. -/
theorem statusIsTheViewOfPhaseAndErr : Obligations.StatusIsTheViewOfPhaseAndErr := by
  refine fun s => ⟨?phase, ?zero, high_of_append _ _, ?code, ?value⟩
  case phase =>
    rw [State.status, BitVec.extractLsb'_append_eq_of_add_le (by decide)]
    cases s.phase <;> rfl
  case zero =>
    rw [State.status, BitVec.extractLsb'_append_eq_of_add_le (by decide)]
    cases s.phase <;> rfl
  case code => cases s.phase <;> decide
  case value =>
    rw [State.status, append_byte_toNat s.err]
    cases s.phase <;> rfl

/-- Settles O1: the fields are those of `State.reset`, and `STATUS` is computed from them. -/
theorem resetLeavesAnEmptySession : Obligations.ResetLeavesAnEmptySession :=
  ⟨State.reset_phase, State.reset_err, by decide, State.reset_cal⟩

/-- Settles O47: no register holds a value, `ERR` is 0 and there is no response. -/
theorem sessionInvariantAtReset : Obligations.SessionInvariantAtReset := by
  refine ⟨⟨by simp, fun _ => State.reset_err, by simp⟩, ?_⟩
  simp [ResponsesInv]

end Sys2Proof.Machine
end

section
/-! O51. No meaning reads the responses given or the host's later actions, and CALDEC and UNPACK read no coefficient register
(R23). The equations of the two commands, one per case, come first. -/

namespace Sys2Proof.Machine

/-! ### CALDEC and UNPACK, case by case -/

section Equations

variable {s : State} {cala calb : List Byte}

theorem execCaldec_of_failed (h : s.phase = .failed) : execCaldec cala calb s = .next (s.answer ⟨4, s.err, none⟩) := by
  simp only [execCaldec, h]; exact raiseSessionFailed_eq h

theorem execCaldec_of_ready (h : s.phase = .ready) : execCaldec cala calb s = .next ((s.fail 3).answer ⟨3, 0, none⟩) := by
  simp only [execCaldec, h]; exact raise_of_not_failed (by simp [h]) .storeLocked 0

theorem execCaldec_of_lengths (h : s.phase = .empty) (ha : cala.length = Config.lenA) (hb : calb.length = Config.lenB) :
    execCaldec cala calb s = .next ((s.loadCal (decodeCal (blockOf _ cala ha) (blockOf _ calb hb))).answer
      ⟨0, 0, some (.coefficients (decodeCal (blockOf _ cala ha) (blockOf _ calb hb)))⟩) := by
  simp only [execCaldec, h]; exact dif_pos ⟨ha, hb⟩

theorem execCaldec_of_wrong_length (h : s.phase = .empty)
    (hl : ¬ (cala.length = Config.lenA ∧ calb.length = Config.lenB)) :
    execCaldec cala calb s = .next ((s.fail 1).answer ⟨1, 0, none⟩) := by
  simp only [execCaldec, h, dif_neg hl]; exact raise_of_not_failed (by simp [h]) .malformedCalibrationData 0

theorem execUnpack_of_failed (smp : SampleBlock) (h : s.phase = .failed) :
    execUnpack smp s = .next (s.answer ⟨4, s.err, none⟩) := by
  simp only [execUnpack, h]; exact raiseSessionFailed_eq h

theorem execUnpack_of_not_failed (smp : SampleBlock) (h : s.phase ≠ .failed) :
    execUnpack smp s = .next (s.answer ⟨0, 0, some (unpackSample smp)⟩) := by
  cases hp : s.phase with
  | failed => exact absurd hp h
  | empty => simp only [execUnpack, hp]; exact respond_eq _ s
  | ready => simp only [execUnpack, hp]; exact respond_eq _ s

end Equations

/-! ### Commands whose answer is fixed by `PHASE` and `ERR` alone -/

/-- What a command does to the block beside its response. -/
inductive Effect where
  | keep
  | fail (code : BitVec 8)
  | load (c : Coefs)

/-- The block after an effect, by the named updates of Machine/Ops.lean. -/
def State.apply (s : State) : Effect → State
  | .keep => s
  | .fail code => s.fail code
  | .load c => s.loadCal c

@[simp] theorem State.apply_responses (s : State) (e : Effect) : (s.apply e).responses = s.responses := by
  cases e <;> rfl

/-- Every state with the `PHASE` and `ERR` of `s` gets the same effect and the same response. -/
def AnswersByPhase (f : State → Host.Outcome State Fault Refusal) (s : State) : Prop :=
  ∃ (e : Effect) (r : Response), ∀ u : State, u.phase = s.phase → u.err = s.err → f u = .next ((u.apply e).answer r)

theorem rejectCommand_answersByPhase (code : Byte) (s : State) : AnswersByPhase (rejectCommand code) s := by
  by_cases hp : s.phase = .failed
  · exact ⟨.keep, ⟨4, s.err, none⟩, fun u hu he => he ▸ rejectCommand_of_failed (hu.trans hp) code⟩
  · exact ⟨.fail 5, _, fun u hu _ => rejectCommand_of_not_failed (hu ▸ hp) code⟩

theorem execCaldec_answersByPhase (cala calb : List Byte) (s : State) : AnswersByPhase (execCaldec cala calb) s := by
  cases hp : s.phase with
  | failed => exact ⟨.keep, ⟨4, s.err, none⟩, fun u hu he => he ▸ execCaldec_of_failed (hu.trans hp)⟩
  | ready => exact ⟨.fail 3, _, fun u hu _ => execCaldec_of_ready (hu.trans hp)⟩
  | empty =>
    by_cases hl : cala.length = Config.lenA ∧ calb.length = Config.lenB
    · exact ⟨.load _, _, fun u hu _ => execCaldec_of_lengths (hu.trans hp) hl.1 hl.2⟩
    · exact ⟨.fail 1, _, fun u hu _ => execCaldec_of_wrong_length (hu.trans hp) hl⟩

theorem execUnpack_answersByPhase (smp : SampleBlock) (s : State) : AnswersByPhase (execUnpack smp) s := by
  by_cases hp : s.phase = .failed
  · exact ⟨.keep, ⟨4, s.err, none⟩, fun u hu he => he ▸ execUnpack_of_failed smp (hu.trans hp)⟩
  · exact ⟨.keep, _, fun u hu _ => execUnpack_of_not_failed smp (hu ▸ hp)⟩

/-- Such a command's response does not depend on the coefficient registers. -/
theorem AnswersByPhase.responses_of_cal {f : State → Host.Outcome State Fault Refusal} {s t : State}
    (hf : AnswersByPhase f s) (h : f s = .next t) (other : Option Coefs) :
    ∃ u : State, f { s with cal := other } = .next u ∧ u.responses = t.responses := by
  obtain ⟨e, r, heq⟩ := hf
  rw [heq s rfl rfl] at h
  cases h
  exact ⟨_, heq _ rfl rfl, by simp⟩

/-! ### What is outside the block is not read -/

/-- The same block with other responses given before and other actions to come. -/
def State.amid (s : State) (later : List HostAction) (earlier : List Response) : State :=
  { s with host := later, responses := earlier }

/-- From `s`, `f` adds the same responses and leaves the same block whatever the other responses and actions are. -/
def BlindAt (f : State → Host.Outcome State Fault Refusal) (s : State) : Prop :=
  ∀ t, f s = .next t → ∃ given : List Response, t.responses = s.responses ++ given ∧
    ∀ later earlier, f (s.amid later earlier) = .next (t.amid later (earlier ++ given))

theorem respond_blindAt {p : State → Payload} (hp : ∀ s later earlier, p (s.amid later earlier) = p s) (s : State) :
    BlindAt (fun s => respond (p s) s) s := by
  intro t h
  cases h
  refine ⟨[⟨okCode, 0, some (p s)⟩], rfl, fun later earlier => ?_⟩
  simp only [hp]; rfl

theorem State.apply_amid (s : State) (e : Effect) (later : List HostAction) (earlier : List Response) :
    (s.amid later earlier).apply e = (s.apply e).amid later earlier := by
  cases e <;> rfl

theorem AnswersByPhase.blindAt {f : State → Host.Outcome State Fault Refusal} {s : State} (hf : AnswersByPhase f s) :
    BlindAt f s := by
  intro t h
  obtain ⟨e, r, heq⟩ := hf
  rw [heq s rfl rfl] at h
  cases h
  refine ⟨[r], by simp, fun later earlier => ?_⟩
  rw [heq (s.amid later earlier) rfl rfl, State.apply_amid]
  rfl

theorem admission_blindAt {k : Coefs → State → Host.Outcome State Fault Refusal} {s : State} (hk : ∀ c, BlindAt (k c) s) :
    BlindAt (admission k) s := by
  intro t h
  cases hp : s.phase with
  | failed =>
    rw [admission_of_failed hp] at h
    cases h; exact ⟨_, rfl, fun later earlier => admission_of_failed (s := s.amid later earlier) hp⟩
  | empty =>
    rw [admission_of_empty hp] at h
    cases h; exact ⟨_, rfl, fun later earlier => admission_of_empty (s := s.amid later earlier) hp⟩
  | ready =>
    cases hc : s.cal with
    | none => simp [admission, hp, hc] at h
    | some c =>
      rw [admission_of_ready hp hc] at h
      obtain ⟨given, hgiven, hblind⟩ := hk c t h
      exact ⟨given, hgiven, fun later earlier =>
        (admission_of_ready (s := s.amid later earlier) hp hc).trans (hblind later earlier)⟩

theorem exec_blindAt (i : Instr) (s : State) : BlindAt (exec i) s := by
  cases i with
  | caldec cala calb => exact (execCaldec_answersByPhase cala calb s).blindAt
  | unpack smp => exact (execUnpack_answersByPhase smp s).blindAt
  | temp rawT => exact admission_blindAt fun _ => respond_blindAt (fun _ _ _ => rfl) s
  | press rawP fine => exact admission_blindAt fun _ => respond_blindAt (fun _ _ _ => rfl) s
  | hum rawH fine => exact admission_blindAt fun _ => respond_blindAt (fun _ _ _ => rfl) s

theorem present_blindAt (a : HostAction) (s : State) : BlindAt (present a) s := by
  intro t h
  cases a with
  | reset => cases h; exact ⟨[], by simp, fun _ _ => by simp [present, State.amid, State.restart]⟩
  | command i =>
    by_cases hwf : i.WellFormed
    · simp only [present, presentCommand_of_wellFormed hwf] at h ⊢
      exact exec_blindAt i s t h
    · simp [present, presentCommand, hwf] at h
  | reservedCode code =>
    cases hop : opcodeOf code with
    | none =>
      simp only [present, presentReserved, hop] at h ⊢
      exact (rejectCommand_answersByPhase code s).blindAt t h
    | some op => simp [present, presentReserved, hop] at h
  | frame bytes =>
    cases hdec : decode bytes with
    | ok i =>
      simp only [present, presentFrame_of_decode hdec] at h ⊢
      exact exec_blindAt i s t h
    | error e =>
      simp only [present, presentFrame, hdec] at h ⊢
      exact (rejectCommand_answersByPhase _ s).blindAt t h

/-- Settles O51: `present` is blind to what is outside the block, and the two commands to the coefficient registers. -/
theorem noHiddenState : Obligations.NoHiddenState := by
  refine ⟨fun a rest later earlier s t hhost hstep => ?_, ?_⟩
  · rw [step_of_host_cons hhost] at hstep
    obtain ⟨given, hgiven, hblind⟩ := present_blindAt a (s.withHost rest) t hstep
    exact ⟨given, hgiven, (step_of_host_cons rfl).trans (hblind later earlier)⟩
  · rintro _ s t other (⟨cala, calb, rfl⟩ | ⟨smp, rfl⟩) h
    · exact (execCaldec_answersByPhase cala calb s).responses_of_cal h other
    · exact (execUnpack_answersByPhase smp s).responses_of_cal h other

end Sys2Proof.Machine
end

section
/-! O9 and O10. The decoder accepts exactly the frames of the well-formed commands (R44): per row of the opcode table, which
operand bytes are accepted and as what; then the whole frame. -/

namespace Sys2Proof

/-- The operand bytes of a frame, read by the row of the opcode table that its code byte names. -/
def decodeOperands : Opcode → List Byte → Except DecodeError Instr
  | .caldec => decodeCaldec
  | .unpack => decodeUnpack
  | .temp => decodeTemp
  | .press => decodePress
  | .hum => decodeHum

theorem decode_of_opcodeOf_eq_some {code : Byte} {op : Opcode} (h : opcodeOf code = some op) (operands : List Byte) :
    decode (code :: operands) = decodeOperands op operands := by
  cases op <;> simp only [decode, h, decodeOperands]

theorem decode_of_opcodeOf_eq_none {code : Byte} (h : opcodeOf code = none) (operands : List Byte) :
    decode (code :: operands) = .error (.reservedCode code) := by
  simp only [decode, h]

/-! ### The operand bytes -/

/-- The first length byte says where the second one stands, and the second that nothing follows `CALB`. -/
theorem decodeCaldec_eq_ok_iff {operands : List Byte} {i : Instr} :
    decodeCaldec operands = .ok i ↔ ∃ a b : List Byte, i = .caldec a b ∧ (a.length ≤ 255 ∧ b.length ≤ 255) ∧
      (BitVec.ofNat 8 a.length :: a) ++ (BitVec.ofNat 8 b.length :: b) = operands := by
  constructor
  · intro h
    cases operands with
    | nil => cases h
    | cons lenA rest =>
      simp only [decodeCaldec] at h
      split at h
      · cases h
      · next lenB calb hdrop =>
        split at h
        · next hlenB =>
          cases h
          have hlenA : (rest.take lenA.toNat).length = lenA.toNat := by
            have := congrArg List.length hdrop
            simp at this ⊢; omega
          refine ⟨_, _, rfl, ⟨by omega, by omega⟩, ?_⟩
          rw [hlenA, hlenB, BitVec.ofNat_toNat, BitVec.ofNat_toNat, BitVec.setWidth_eq, BitVec.setWidth_eq,
            List.cons_append, ← hdrop, List.take_append_drop]
        · cases h
  · rintro ⟨a, b, rfl, ⟨ha, hb⟩, rfl⟩
    have toNat_length : ∀ l : List Byte, l.length ≤ 255 → (BitVec.ofNat 8 l.length).toNat = l.length := fun l hl => by
      rw [BitVec.toNat_ofNat, Nat.mod_eq_of_lt (by omega)]
    simp [decodeCaldec, toNat_length a ha, toNat_length b hb, -BitVec.toNat_ofNat]

theorem decodeUnpack_eq_ok_iff {operands : List Byte} {i : Instr} :
    decodeUnpack operands = .ok i ↔ ∃ smp : SampleBlock, i = .unpack smp ∧ smp.toList = operands := by
  constructor
  · intro h
    unfold decodeUnpack at h
    split at h
    · cases h; exact ⟨_, rfl, rfl⟩
    · cases h
  · rintro ⟨⟨⟨bytes⟩, hlen⟩, rfl, rfl⟩
    match bytes, hlen with
    | [_, _, _, _, _, _, _, _], _ => rfl

/-- A raw operand's four bytes are those of the operand with zeros above it. -/
theorem bytes32_setWidth_of_narrow {n : Nat} {b0 b1 b2 b3 : Byte} {r : BitVec n} (h : narrow n (le32 b0 b1 b2 b3) = some r) :
    bytes32 (r.setWidth 32) = [b0, b1, b2, b3] := by
  rw [setWidth_of_narrow h, bytes32_le32]

theorem decodeTemp_eq_ok_iff {operands : List Byte} {i : Instr} :
    decodeTemp operands = .ok i ↔ ∃ rawT : BitVec 20, i = .temp rawT ∧ bytes32 (rawT.setWidth 32) = operands := by
  constructor
  · intro h
    unfold decodeTemp at h
    split at h
    · split at h
      · next rawT hraw => cases h; exact ⟨rawT, rfl, bytes32_setWidth_of_narrow hraw⟩
      · cases h
    · cases h
  · rintro ⟨rawT, rfl, rfl⟩
    simp only [bytes32, decodeTemp, le32_extract, narrow_setWidth (show 20 ≤ 32 by decide)]

theorem decodePress_eq_ok_iff {operands : List Byte} {i : Instr} :
    decodePress operands = .ok i ↔ ∃ (rawP : BitVec 20) (fine : BitVec 32),
      i = .press rawP fine ∧ bytes32 (rawP.setWidth 32) ++ bytes32 fine = operands := by
  constructor
  · intro h
    unfold decodePress at h
    split at h
    · split at h
      · next rawP hraw =>
        cases h; exact ⟨rawP, _, rfl, by rw [bytes32_setWidth_of_narrow hraw, bytes32_le32]; rfl⟩
      · cases h
    · cases h
  · rintro ⟨rawP, fine, rfl, rfl⟩
    simp only [bytes32, List.cons_append, List.nil_append, decodePress, le32_extract,
      narrow_setWidth (show 20 ≤ 32 by decide)]

theorem decodeHum_eq_ok_iff {operands : List Byte} {i : Instr} :
    decodeHum operands = .ok i ↔ ∃ (rawH : BitVec 16) (fine : BitVec 32),
      i = .hum rawH fine ∧ bytes32 (rawH.setWidth 32) ++ bytes32 fine = operands := by
  constructor
  · intro h
    unfold decodeHum at h
    split at h
    · split at h
      · next rawH hraw =>
        cases h; exact ⟨rawH, _, rfl, by rw [bytes32_setWidth_of_narrow hraw, bytes32_le32]; rfl⟩
      · cases h
    · cases h
  · rintro ⟨rawH, fine, rfl, rfl⟩
    simp only [bytes32, List.cons_append, List.nil_append, decodeHum, le32_extract,
      narrow_setWidth (show 16 ≤ 32 by decide)]

/-! ### The frame -/

theorem decodeOperands_ok {op : Opcode} {operands : List Byte} {i : Instr} (h : decodeOperands op operands = .ok i) :
    i.WellFormed ∧ encode i = codeOf op :: operands := by
  cases op with
  | caldec =>
    obtain ⟨a, b, rfl, hlen, rfl⟩ := decodeCaldec_eq_ok_iff.mp h
    exact ⟨(wellFormed_caldec a b).mpr hlen, rfl⟩
  | unpack =>
    obtain ⟨smp, rfl, rfl⟩ := decodeUnpack_eq_ok_iff.mp h
    exact ⟨rfl, rfl⟩
  | temp =>
    obtain ⟨rawT, rfl, rfl⟩ := decodeTemp_eq_ok_iff.mp h
    exact ⟨rfl, rfl⟩
  | press =>
    obtain ⟨rawP, fine, rfl, rfl⟩ := decodePress_eq_ok_iff.mp h
    exact ⟨rfl, rfl⟩
  | hum =>
    obtain ⟨rawH, fine, rfl, rfl⟩ := decodeHum_eq_ok_iff.mp h
    exact ⟨rfl, rfl⟩

theorem decode_codeOf (op : Opcode) (operands : List Byte) : decode (codeOf op :: operands) = decodeOperands op operands :=
  decode_of_opcodeOf_eq_some (opcodeOf_codeOf op) operands

/-- Settles O9: the operand bytes of each command's frame are accepted as it. -/
theorem decodeInvertsEncode : Obligations.DecodeInvertsEncode := by
  intro i hwf
  cases i with
  | caldec a b =>
    exact (decode_codeOf .caldec _).trans (decodeCaldec_eq_ok_iff.mpr ⟨a, b, rfl, (wellFormed_caldec a b).mp hwf, rfl⟩)
  | unpack smp => exact (decode_codeOf .unpack _).trans (decodeUnpack_eq_ok_iff.mpr ⟨smp, rfl, rfl⟩)
  | temp rawT => exact (decode_codeOf .temp _).trans (decodeTemp_eq_ok_iff.mpr ⟨rawT, rfl, rfl⟩)
  | press rawP fine => exact (decode_codeOf .press _).trans (decodePress_eq_ok_iff.mpr ⟨rawP, fine, rfl, rfl⟩)
  | hum rawH fine => exact (decode_codeOf .hum _).trans (decodeHum_eq_ok_iff.mpr ⟨rawH, fine, rfl, rfl⟩)

/-- Settles O10: the code byte of an accepted frame is that of a row of the table, and so are its operand bytes. -/
theorem onlyItsFrameSpellsACommand : Obligations.OnlyItsFrameSpellsACommand := by
  intro bytes i h
  cases bytes with
  | nil => cases h
  | cons code operands =>
    cases hop : opcodeOf code with
    | none => rw [decode_of_opcodeOf_eq_none hop] at h; cases h
    | some op =>
      rw [decode_of_opcodeOf_eq_some hop] at h
      rw [eq_codeOf_of_opcodeOf hop]
      exact decodeOperands_ok h

end Sys2Proof
end

section
/-! O7. The reserved codes (R43): no row of the opcode table rejects its operand bytes as those of a reserved code. -/

namespace Sys2Proof

/-- Operand bytes are rejected for their length or for a bit that must be zero (R44). -/
theorem decodeOperands_ne_reservedCode (op : Opcode) (operands : List Byte) (code : Byte) :
    decodeOperands op operands ≠ .error (.reservedCode code) := by
  cases op with
  | caldec => unfold decodeOperands decodeCaldec; grind
  | unpack => unfold decodeOperands decodeUnpack; grind
  | temp => unfold decodeOperands decodeTemp; grind
  | press => unfold decodeOperands decodePress; grind
  | hum => unfold decodeOperands decodeHum; grind

/-- Settles O7: a frame is rejected so exactly when the table has no row for its code. -/
theorem reservedCodesAreTheOthers : Obligations.ReservedCodesAreTheOthers := by
  intro code operands
  rw [← opcodeOf_eq_none_iff]
  refine ⟨fun h => ?_, fun h => decode_of_opcodeOf_eq_none h operands⟩
  cases hop : opcodeOf code with
  | none => rfl
  | some op =>
    rw [decode_of_opcodeOf_eq_some hop] at h
    exact absurd h (decodeOperands_ne_reservedCode op operands code)

end Sys2Proof
end

section
/-! O8 and O11. The table of R44, byte by byte, and the frames that the spec writes out. -/

namespace Sys2Proof

/-- The four frame bytes of a word are its digits in base 256, the least significant first (R44). -/
theorem bytes32_map_toNat (w : BitVec 32) : (bytes32 w).map BitVec.toNat
    = [w.toNat % 256, w.toNat / 256 % 256, w.toNat / 65536 % 256, w.toNat / 16777216] := by
  have hw := w.isLt
  have htop : w.toNat / 16777216 % 256 = w.toNat / 16777216 := Nat.mod_eq_of_lt (by omega)
  simp [bytes32, BitVec.extractLsb'_toNat, Nat.shiftRight_eq_div_pow, htop]

theorem toNat_setWidth32 {n : Nat} (h : n ≤ 32) (r : BitVec n) : (r.setWidth 32).toNat = r.toNat := by
  rw [BitVec.toNat_setWidth, Nat.mod_eq_of_lt (r.isLt.trans_le (Nat.pow_le_pow_right (by decide) h))]

theorem bytes32_raw20_map_toNat (r : BitVec 20) : (bytes32 (r.setWidth 32)).map BitVec.toNat
    = [r.toNat % 256, r.toNat / 256 % 256, r.toNat / 65536, 0] := by
  have hr := r.isLt
  rw [bytes32_map_toNat, toNat_setWidth32 (by decide), Nat.mod_eq_of_lt (a := r.toNat / 65536) (by omega),
    Nat.div_eq_of_lt (b := 16777216) (by omega)]

theorem bytes32_raw16_map_toNat (r : BitVec 16) : (bytes32 (r.setWidth 32)).map BitVec.toNat
    = [r.toNat % 256, r.toNat / 256, 0, 0] := by
  have hr := r.isLt
  rw [bytes32_map_toNat, toNat_setWidth32 (by decide), Nat.mod_eq_of_lt (a := r.toNat / 256) (by omega),
    Nat.div_eq_of_lt (b := 65536) (by omega), Nat.div_eq_of_lt (b := 16777216) (by omega)]

/-- Settles O8, row by row of the table. -/
theorem framesAreTheTableOfR44 : Obligations.FramesAreTheTableOfR44 := by
  refine ⟨fun a b => ?caldec, fun smp => rfl, fun r => ?temp, fun r x => ?press, fun r x => ?hum⟩
  case caldec => simp [encode, codeOf]
  case temp => simp [encode, codeOf, bytes32_raw20_map_toNat]
  case press => simp [encode, codeOf, bytes32_raw20_map_toNat, bytes32_map_toNat x]
  case hum => simp [encode, codeOf, bytes32_raw16_map_toNat, bytes32_map_toNat x]

/-- Settles O11: the decoder is run on each of the five frames. -/
theorem framesOfTheSpecDecode : Obligations.FramesOfTheSpecDecode := by
  refine ⟨?_, ?_, ?_, ?_, ?_⟩ <;> decide

end Sys2Proof
end

section
/-! O49. Every number in a response is a value of `Num(FMT)` (R11, R69): the last operation of each formula gives a value of
the format. -/

namespace Sys2Proof

/-- `x` is a value of `Num(fmt)` under the name that `N` gives it. -/
def NumSys.HasValue {α : Type} (N : NumSys α) (fmt : Fmt) (x : α) : Prop := Number.InFormat fmt (N.toNum x)

/-- The primitives of `N` give values of `Num(fmt)` (R11). Conversions and sums do so on any operands, products and quotients
on values of the format. -/
structure NumSys.Closed {α : Type} (N : NumSys α) (fmt : Fmt) : Prop where
  ofInt : ∀ i, N.HasValue fmt (N.ofInt i)
  lit : ∀ c, N.HasValue fmt (N.lit c)
  fadd : ∀ x y, N.HasValue fmt (N.fadd x y)
  fsub : ∀ x y, N.HasValue fmt (N.fsub x y)
  fmul : ∀ {x y}, N.HasValue fmt x → N.HasValue fmt y → N.HasValue fmt (N.fmul x y)
  fdiv : ∀ {x y}, N.HasValue fmt x → N.HasValue fmt y → N.HasValue fmt (N.fdiv x y)

theorem exactSys_closed : exactSys.Closed .exact :=
  ⟨fun _ => trivial, fun _ => trivial, fun _ _ => trivial, fun _ _ => trivial, fun _ _ => trivial, fun _ _ => trivial⟩

theorem ieeeSys_closed {f : FloatFormat} {toNum : Ieee → Number} {fmt : Fmt}
    (h : ∀ x, Number.InFormat fmt (toNum x) ↔ x.InFormat f) : (ieeeSys f toNum).Closed fmt where
  ofInt i := (h _).mpr (Ieee.inFormat_ofInt i)
  lit c := (h _).mpr (Ieee.inFormat_ofInt c)
  fadd x y := (h _).mpr (Ieee.inFormat_fadd x y)
  fsub x y := (h _).mpr (Ieee.inFormat_fsub x y)
  fmul hx hy := (h _).mpr (Ieee.inFormat_fmul ((h _).mp hx) ((h _).mp hy))
  fdiv hx hy := (h _).mpr (Ieee.inFormat_fdiv ((h _).mp hx) ((h _).mp hy))

/-- What holds of a computation over every number system that is closed for `fmt` holds in the one that `fmt` names. -/
theorem withFormat_induction {β : Type} (P : β → Prop) (fmt : Fmt) {k : (α : Type) → NumSys α → β}
    (h : ∀ (α : Type) (N : NumSys α), N.Closed fmt → P (k α N)) : P (withFormat fmt k) := by
  cases fmt with
  | exact => exact h _ _ exactSys_closed
  | binary64 => exact h _ _ (ieeeSys_closed fun _ => Iff.rfl)
  | binary32 => exact h _ _ (ieeeSys_closed fun _ => Iff.rfl)

end Sys2Proof

namespace Sys2Proof.Machine

section Formulas

variable {α : Type} {N : NumSys α} {fmt : Fmt} (hN : N.Closed fmt) (c : Coefs)
include hN

theorem tempPayload_inFormat (rawT : BitVec 20) : (tempPayload N c rawT).InFormat fmt :=
  hN.fdiv (hN.fadd _ _) (hN.lit _)

/-- The guard answers a literal, and any other pressure is a sum (R64, R65). -/
theorem pressPascals_hasValue (rawP : BitVec 20) (fine : BitVec 32) : N.HasValue fmt (pressPascals N c rawP fine) := by
  simp only [pressPascals]
  split
  · exact hN.lit 0
  · exact hN.fadd _ _

theorem humRight_hasValue (h1 : α) : N.HasValue fmt (humRight N c h1) :=
  hN.fmul (hN.fdiv (hN.ofInt _) (hN.lit _)) (hN.fadd _ _)

theorem humUnclamped_hasValue (rawH : BitVec 16) (fine : BitVec 32) : N.HasValue fmt (humUnclamped N c rawH fine) :=
  hN.fmul (hN.fmul (hN.fsub _ _) (humRight_hasValue hN c _)) (hN.fsub _ _)

/-- The clamp answers a literal or its operand (R68). -/
theorem clamp_hasValue {h : α} (hh : N.HasValue fmt h) : N.HasValue fmt (clamp N h) := by
  unfold clamp
  split_ifs
  · exact hN.lit 100
  · exact hN.lit 0
  · exact hh

end Formulas

theorem payloadOf_lastResponse_answer (s : State) (r : Response) : payloadOf (s.answer r).lastResponse = r.payload := by
  simp [payloadOf]

/-- Whatever a command does, the numbers in the payload of its response are values of `Num(FMT)` (R11, R37). -/
theorem ExecShape.payload_inFormat {s t : State} (h : ExecShape s t) {p : Payload}
    (hp : payloadOf t.lastResponse = some p) : p.InFormat s.fmt := by
  cases h <;> rw [payloadOf_lastResponse_answer] at hp <;> cases hp
  case loads => trivial
  case unpacks => trivial
  case temperature _ c _ rawT =>
    exact withFormat_induction (Payload.InFormat s.fmt) s.fmt fun _ _ hN => tempPayload_inFormat hN c rawT
  case pressure _ c _ rawP fine =>
    exact withFormat_induction (Number.InFormat s.fmt) s.fmt fun _ _ hN => pressPascals_hasValue hN c rawP fine
  case humidity _ c _ rawH fine =>
    exact withFormat_induction (Number.InFormat s.fmt) s.fmt fun _ _ hN =>
      clamp_hasValue hN (humUnclamped_hasValue hN c rawH fine)

theorem ExecShape.keeps_responsesInv {s t : State} (h : ExecShape s t) (hs : ResponsesInv s) : ResponsesInv t := by
  obtain ⟨r, hresp, hwf, hfmt, -⟩ := h.answers_once
  intro q hq
  rw [hresp, List.mem_append, List.mem_singleton] at hq
  rw [hfmt]
  rcases hq with hq | rfl
  · exact hs q hq
  · exact ⟨hwf, fun p hp => h.payload_inFormat (by simp [payloadOf, State.lastResponse, hresp, hp])⟩

/-- Settles O49, by the inversion of a step. -/
theorem stepKeepsTheResponsesInFormat : Obligations.StepKeepsTheResponsesInFormat := by
  intro s t hs hstep
  rcases step_cases hstep with ⟨-, rfl⟩ | ⟨a, rest, -, ⟨-, rfl⟩ | ⟨-, hshape⟩⟩
  · exact hs
  · exact hs
  · exact hshape.keeps_responsesInv (s := s.withHost rest) hs

end Sys2Proof.Machine
end

section
/-! O5. The frame that holds no byte (log entry 6). -/

namespace Sys2Proof.Machine

/-- Settles O5: the free byte is the `info`. -/
theorem emptyFrameIsAnsweredReservedCommand : Obligations.EmptyFrameIsAnsweredReservedCommand := by
  intro s rest hhost hp
  exact ⟨Config.emptyFrameInfo, (step_of_host_cons hhost).trans
    (rejectCommand_of_not_failed (s := s.withHost rest) hp Config.emptyFrameInfo)⟩

end Sys2Proof.Machine
end

section
/-! O18. What UNPACK discards, and that it reaches every raw sample (R43, R58). -/

namespace Sys2Proof.Machine

/-- The low nibble of the last byte does not enter the field (R55). -/
theorem u20be4_congr (a b : Byte) {c d : Byte} (h : d.toNat / 16 = c.toNat / 16) : u20be4 a b d = u20be4 a b c := by
  apply BitVec.eq_of_toNat_eq
  rw [u20be4_toNat, u20be4_toNat]
  omega

/-- The three bytes of a 20-bit value, with any discarded nibble, are read as it (R55). -/
theorem u20be4_extract (r : BitVec 20) (d : BitVec 4) :
    u20be4 (r.extractLsb' 12 8) (r.extractLsb' 4 8) (r.extractLsb' 0 4 ++ d) = r := by
  apply BitVec.eq_of_toNat_eq
  have hr := r.isLt
  have hd := d.isLt
  rw [u20be4_toNat, append_nibble_toNat]
  simp only [BitVec.extractLsb'_toNat, Nat.shiftRight_eq_div_pow]
  omega

theorem u16be_extract (r : BitVec 16) : u16be (r.extractLsb' 8 8) (r.extractLsb' 0 8) = r := high_low r

/-- The layout of R41, byte by byte. -/
theorem unpackSample_bytes (b0 b1 b2 b3 b4 b5 b6 b7 : Byte) : unpackSample #v[b0, b1, b2, b3, b4, b5, b6, b7]
    = .sample (u20be4 b0 b1 b2) (u20be4 b3 b4 b5) (u16be b6 b7) := rfl

/-- A block of a raw sample, with zeros where UNPACK discards (R58). -/
def packSample (rawP rawT : BitVec 20) (rawH : BitVec 16) : SampleBlock :=
  #v[rawP.extractLsb' 12 8, rawP.extractLsb' 4 8, rawP.extractLsb' 0 4 ++ 0#4,
     rawT.extractLsb' 12 8, rawT.extractLsb' 4 8, rawT.extractLsb' 0 4 ++ 0#4,
     rawH.extractLsb' 8 8, rawH.extractLsb' 0 8]

theorem unpackSample_packSample (rawP rawT : BitVec 20) (rawH : BitVec 16) :
    unpackSample (packSample rawP rawT rawH) = .sample rawP rawT rawH := by
  rw [packSample, unpackSample_bytes, u20be4_extract, u20be4_extract, u16be_extract]

/-- UNPACK depends on the block only by the payload it unpacks to. -/
theorem execUnpack_congr {smp smp' : SampleBlock} (h : unpackSample smp = unpackSample smp') (s : State) :
    execUnpack smp s = execUnpack smp' s := by
  simp only [execUnpack, h]

/-- Settles O18: the two blocks unpack to one payload, and `packSample` is a block of each raw sample. -/
theorem unpackDiscardsTwoNibblesAndIsOnto : Obligations.UnpackDiscardsTwoNibblesAndIsOnto := by
  refine ⟨fun b0 b1 b2 b3 b4 b5 b6 b7 d2 d5 h2 h5 s => ?_,
    fun rawP rawT rawH => ⟨_, unpackSample_packSample rawP rawT rawH⟩⟩
  have hP : u20be4 b0 b1 d2 = u20be4 b0 b1 b2 := u20be4_congr b0 b1 h2
  have hT : u20be4 b3 b4 d5 = u20be4 b3 b4 b5 := u20be4_congr b3 b4 h5
  exact execUnpack_congr (by rw [unpackSample_bytes, unpackSample_bytes, hP, hT]) s

end Sys2Proof.Machine
end

section
/-! O45 and O46. The expansion of CYCLE (R46), one command at a time: an `OK` response of the command's form hands its values
on, and a response without a payload is the result. -/

namespace Sys2Proof.Machine

/-! ### One command of the expansion -/

section Expansion

variable {smp : SampleBlock} {s t : State} {rawP rawT : BitVec 20} {rawH : BitVec 16} {fine : BitVec 32}
  {celsius pascals percent : Number}

theorem cycle_continues (h : exec (.unpack smp) s = .next (s.answer ⟨0, 0, some (.sample rawP rawT rawH)⟩)) :
    cycle smp s = cycleTemp rawP rawT rawH (s.answer ⟨0, 0, some (.sample rawP rawT rawH)⟩) := by
  simp only [cycle, h, payloadOf_lastResponse_answer]

theorem cycle_stops (h : exec (.unpack smp) s = .next t) (ht : payloadOf t.lastResponse = none) :
    cycle smp s = .next (t, .stopped t.lastResponse) := by
  simp only [cycle, h, ht]

theorem cycleTemp_continues (h : exec (.temp rawT) s = .next (s.answer ⟨0, 0, some (.temperature celsius fine)⟩)) :
    cycleTemp rawP rawT rawH s = cyclePress celsius rawP rawH fine (s.answer ⟨0, 0, some (.temperature celsius fine)⟩) := by
  simp only [cycleTemp, h, payloadOf_lastResponse_answer]

theorem cycleTemp_stops (h : exec (.temp rawT) s = .next t) (ht : payloadOf t.lastResponse = none) :
    cycleTemp rawP rawT rawH s = .next (t, .stopped t.lastResponse) := by
  simp only [cycleTemp, h, ht]

theorem cyclePress_continues (h : exec (.press rawP fine) s = .next (s.answer ⟨0, 0, some (.pressure pascals)⟩)) :
    cyclePress celsius rawP rawH fine s
      = cycleHum celsius pascals rawH fine (s.answer ⟨0, 0, some (.pressure pascals)⟩) := by
  simp only [cyclePress, h, payloadOf_lastResponse_answer]

theorem cycleHum_reads (h : exec (.hum rawH fine) s = .next (s.answer ⟨0, 0, some (.humidity percent)⟩)) :
    cycleHum celsius pascals rawH fine s
      = .next (s.answer ⟨0, 0, some (.humidity percent)⟩, .reading ⟨celsius, pascals, percent⟩) := by
  simp only [cycleHum, h, payloadOf_lastResponse_answer]

end Expansion

/-! ### The commands in `READY` -/

/-- `PHASE` is `READY`, with these coefficients and this format: all that the answers of the cycle depend on (R72). -/
structure ReadyWith (c : Coefs) (fmt : Fmt) (s : State) : Prop where
  phase : s.phase = .ready
  cal : s.cal = some c
  fmt : s.fmt = fmt

theorem ReadyWith.answer {c : Coefs} {fmt : Fmt} {s : State} (h : ReadyWith c fmt s) (r : Response) :
    ReadyWith c fmt (s.answer r) := ⟨h.phase, h.cal, h.fmt⟩

/-- Every state that is `READY` with these coefficients and this format answers `i` with the payload `p`. -/
def Answers (c : Coefs) (fmt : Fmt) (i : Instr) (p : Payload) : Prop :=
  ∀ s, ReadyWith c fmt s → exec i s = .next (s.answer ⟨0, 0, some p⟩)

variable (c : Coefs) (fmt : Fmt)

theorem unpack_answers (smp : SampleBlock) : Answers c fmt (.unpack smp) (unpackSample smp) :=
  fun _ h => execUnpack_of_not_failed smp (by simp [h.phase])

/-- A compensation command that is admitted answers what its formula gives from the coefficients, in the format. -/
theorem admission_answers {k : Fmt → Coefs → Payload} {s : State} (h : ReadyWith c fmt s) :
    admission (fun c s => respond (k s.fmt c) s) s = .next (s.answer ⟨0, 0, some (k fmt c)⟩) := by
  rw [admission_of_ready h.phase h.cal, h.fmt]; rfl

theorem temp_answers (rawT : BitVec 20) : ∃ celsius fine, Answers c fmt (.temp rawT) (.temperature celsius fine) := by
  obtain ⟨celsius, fine, hform⟩ : ∃ celsius fine,
      withFormat fmt (fun _ N => tempPayload N c rawT) = .temperature celsius fine :=
    withFormat_induction (fun p : Payload => ∃ celsius fine, p = .temperature celsius fine) fmt fun _ _ _ => ⟨_, _, rfl⟩
  refine ⟨celsius, fine, fun s h => ?_⟩
  rw [← hform]
  exact admission_answers c fmt (k := fun fmt c => withFormat fmt fun _ N => tempPayload N c rawT) h

theorem press_answers (rawP : BitVec 20) (fine : BitVec 32) :
    ∃ pascals, Answers c fmt (.press rawP fine) (.pressure pascals) :=
  ⟨_, fun _ h => admission_answers c fmt
    (k := fun fmt c => .pressure (withFormat fmt fun _ N => N.toNum (pressPascals N c rawP fine))) h⟩

theorem hum_answers (rawH : BitVec 16) (fine : BitVec 32) : ∃ percent, Answers c fmt (.hum rawH fine) (.humidity percent) :=
  ⟨_, fun _ h => admission_answers c fmt
    (k := fun fmt c => .humidity (withFormat fmt fun _ N => N.toNum (humPercent N c rawH fine))) h⟩

/-- Settles O45: each command leaves a state from which the next one answers as from the first. -/
theorem cycleIsTheReadingOfTheSample : Obligations.CycleIsTheReadingOfTheSample := by
  intro smp s c hp hc
  have h0 : ReadyWith c s.fmt s := ⟨hp, hc, rfl⟩
  obtain ⟨rawP, rawT, rawH, hsmp⟩ : ∃ rawP rawT rawH, unpackSample smp = .sample rawP rawT rawH := ⟨_, _, _, rfl⟩
  have hunpack := hsmp ▸ unpack_answers c s.fmt smp
  obtain ⟨celsius, fine, htemp⟩ := temp_answers c s.fmt rawT
  obtain ⟨pascals, hpress⟩ := press_answers c s.fmt rawP fine
  obtain ⟨percent, hhum⟩ := hum_answers c s.fmt rawH fine
  refine ⟨rawP, rawT, rawH, celsius, fine, pascals, percent, hunpack s h0, htemp s h0, hpress s h0, hhum s h0, ?_⟩
  have h1 := h0.answer ⟨0, 0, some (.sample rawP rawT rawH)⟩
  have h2 := h1.answer ⟨0, 0, some (.temperature celsius fine)⟩
  have h3 := h2.answer ⟨0, 0, some (.pressure pascals)⟩
  rw [cycle_continues (hunpack s h0), cycleTemp_continues (htemp _ h1), cyclePress_continues (hpress _ h2),
    cycleHum_reads (hhum _ h3)]
  simp [State.answer]

/-- Settles O46: the response that is a fault has no payload, so the expansion stops with it. -/
theorem cycleStopsAtAFault : Obligations.CycleStopsAtAFault := by
  intro smp s
  obtain ⟨rawP, rawT, rawH, hsmp⟩ : ∃ rawP rawT rawH, unpackSample smp = .sample rawP rawT rawH := ⟨_, _, _, rfl⟩
  refine ⟨fun hp => ⟨.sample rawP rawT rawH, ?_⟩, fun hp => ?_⟩
  · have hunpack : exec (.unpack smp) s = .next (s.answer ⟨0, 0, some (.sample rawP rawT rawH)⟩) :=
      hsmp ▸ execUnpack_of_not_failed smp (by simp [hp])
    have htemp : exec (.temp rawT) (s.answer ⟨0, 0, some (.sample rawP rawT rawH)⟩)
        = .next (((s.answer ⟨0, 0, some (.sample rawP rawT rawH)⟩).fail 2).answer ⟨2, 0, none⟩) :=
      admission_of_empty (by simp [hp])
    rw [cycle_continues hunpack, cycleTemp_stops htemp (payloadOf_lastResponse_answer _ _), State.lastResponse_answer]
    simp [State.answer, State.fail]
  · rw [cycle_stops (execUnpack_of_failed smp hp) (payloadOf_lastResponse_answer _ _), State.lastResponse_answer]
    rfl

end Sys2Proof.Machine
end

section
/-! O12, O14, O15 and O16. CALDEC: the fields of the calibration blocks as integers (R47 to R50), the set that the command
loads (R51), and the decoding as a bijection (R52). -/

namespace Sys2Proof.Machine

/-! ### The two directions of the decoding (R52) -/

/-- A calibration block, written out by its bytes. -/
theorem blockA_eta (a : BlockA) : #v[a[0], a[1], a[2], a[3], a[4], a[5], a[6], a[7], a[8], a[9], a[10], a[11], a[12], a[13],
    a[14], a[15], a[16], a[17], a[18], a[19], a[20], a[21], a[22], a[23], a[24]] = a := by
  apply Vector.ext
  intro i hi
  interval_cases i <;> rfl

theorem blockB_eta (b : BlockB) : #v[b[0], b[1], b[2], b[3], b[4], b[5], b[6]] = b := by
  apply Vector.ext
  intro i hi
  interval_cases i <;> rfl

theorem encodeCalA_decodeCal (a : BlockA) (b : BlockB) : encodeCalA (decodeCal a b) = a := by
  simp only [decodeCal_eq, encodeCalA, lowByte, highByte, low_of_append, high_of_append]
  exact blockA_eta a

theorem encodeCalB_decodeCal (a : BlockA) (b : BlockB) : encodeCalB (decodeCal a b) = b := by
  simp only [decodeCal_eq, encodeCalB, lowByte, highByte, low_of_append, high_of_append, whole_of_s12h4, whole_of_s12h5,
    shared_of_s12]
  exact blockB_eta b

theorem decodeCal_encodeCal (c : Coefs) : decodeCal (encodeCalA c) (encodeCalB c) = c := by
  simp [decodeCal_eq, encodeCalA, encodeCalB, lowByte, highByte, high_low, s12h4_extract, s12h5_extract]

/-- Settles O14: the encoders are a two-sided inverse of the decoder. -/
theorem calibrationDecodeIsABijection : Obligations.CalibrationDecodeIsABijection := by
  have hleft (a : BlockA) (b : BlockB) : encodeCalA (decodeCal a b) = a ∧ encodeCalB (decodeCal a b) = b :=
    ⟨encodeCalA_decodeCal a b, encodeCalB_decodeCal a b⟩
  refine ⟨hleft, decodeCal_encodeCal, Function.bijective_iff_has_inverse.mpr ?_⟩
  exact ⟨fun c => (encodeCalA c, encodeCalB c), fun ⟨a, b⟩ => Prod.ext_iff.mpr (hleft a b), decodeCal_encodeCal⟩

/-! ### The fields as integers (R47 to R50) -/

theorem toNat_eq_unsigned16 (lsb msb : Byte) : ((msb ++ lsb : BitVec 16).toNat : Int) = unsigned16 lsb msb := by
  rw [append_byte_toNat msb lsb]; rfl

/-- Two's complement is the threshold of R47. -/
theorem toInt_eq_signed16 (lsb msb : Byte) : (msb ++ lsb : BitVec 16).toInt = signed16 lsb msb := by
  have h := toNat_eq_unsigned16 lsb msb
  rw [BitVec.toInt_eq_toNat_cond]
  unfold signed16
  split_ifs <;> omega

/-- Two's complement is the threshold of R48. -/
theorem toInt_eq_signed8 (b : Byte) : b.toInt = signed8 b := by
  rw [BitVec.toInt_eq_toNat_cond]
  unfold signed8
  split_ifs <;> omega

/-- The sign of a packed field is that of its whole byte (R49, R50). -/
theorem append_nibble_toInt (whole : Byte) (d : BitVec 4) :
    (whole ++ d : BitVec 12).toInt = 16 * whole.toInt + d.toNat :=
  BitVec.toInt_append.trans (if_neg (by decide))

theorem s12h4_toInt (whole shared : Byte) : (s12h4 whole shared).toInt = 16 * whole.toInt + (shared.toNat % 16 : Nat) := by
  rw [s12h4, append_nibble_toInt]; simp [BitVec.extractLsb'_toNat]

theorem s12h5_toInt (whole shared : Byte) : (s12h5 whole shared).toInt = 16 * whole.toInt + (shared.toNat / 16 : Nat) := by
  have := shared.isLt
  rw [s12h5, append_nibble_toInt]; simp [BitVec.extractLsb'_toNat, Nat.shiftRight_eq_div_pow]; omega

theorem s12h4_eq_ofNat (whole shared : Byte) :
    s12h4 whole shared = BitVec.ofNat 12 (whole.toNat * 16 + shared.toNat % 16) := by
  rw [Nat.mul_comm, ← s12h4_toNat, BitVec.ofNat_toNat, BitVec.setWidth_eq]

theorem s12h5_eq_ofNat (whole shared : Byte) :
    s12h5 whole shared = BitVec.ofNat 12 (whole.toNat * 16 + shared.toNat / 16) := by
  rw [Nat.mul_comm, ← s12h5_toNat, BitVec.ofNat_toNat, BitVec.setWidth_eq]

/-- Settles O15: a field of two bytes is their concatenation, and a field of one byte is the byte. -/
theorem signConversionByThreshold : Obligations.SignConversionByThreshold :=
  ⟨fun _ _ _ _ => ⟨toNat_eq_unsigned16 _ _, toInt_eq_signed16 _ _⟩, fun b => ⟨rfl, toInt_eq_signed8 b⟩⟩

/-- Settles O16: the pattern, and so the field, is fixed by the whole byte and the one nibble of the shared byte. -/
theorem packedFieldsInterleaveTheSharedByte : Obligations.PackedFieldsInterleaveTheSharedByte := by
  intro whole shared
  refine ⟨s12h4_toInt whole shared, s12h5_toInt whole shared, by rw [s12h4_eq_ofNat], by rw [s12h5_eq_ofNat],
    fun other h => ?low, fun other h => ?high⟩
  case low => rw [s12h4_eq_ofNat, s12h4_eq_ofNat, h]
  case high => rw [s12h5_eq_ofNat, s12h5_eq_ofNat, h]

/-! ### The command (R51) -/

theorem execCaldec_of_blocks {s : State} (h : s.phase = .empty) (a : BlockA) (b : BlockB) :
    execCaldec a.toList b.toList s
      = .next ((s.loadCal (decodeCal a b)).answer ⟨0, 0, some (.coefficients (decodeCal a b))⟩) :=
  execCaldec_of_lengths h a.length_toList b.length_toList

/-- Settles O12: the command loads `decodeCal`, and the layout gives each register its bytes. -/
theorem caldecLoadsTheDecodedSet : Obligations.CaldecLoadsTheDecodedSet := by
  intro a b s hp
  refine ⟨decodeCal a b, execCaldec_of_blocks hp a b, ?_⟩
  simp only [decodeCal_eq, Coefs.int, toNat_eq_unsigned16, toInt_eq_signed16, s12h4_toInt, s12h5_toInt, toInt_eq_signed8,
    Nat.cast_ofNat, and_self]

end Sys2Proof.Machine
end

section
/-! O17. UNPACK answers the fields of the sample block as integers (R55 to R57). -/

namespace Sys2Proof.Machine

/-- Settles O17: outside `FAILED` the payload is `unpackSample`, whose fields lie as R41 says and are read by R55 and R56. -/
theorem unpackAnswersTheRawSample : Obligations.UnpackAnswersTheRawSample := by
  intro b0 b1 b2 b3 b4 b5 b6 b7 s
  refine ⟨fun hp => ⟨u20be4 b0 b1 b2, u20be4 b3 b4 b5, u16be b6 b7, ?answers, u20be4_toNat b0 b1 b2, u20be4_toNat b3 b4 b5,
    u16be_toNat b6 b7⟩, execUnpack_of_failed _⟩
  case answers =>
    rw [← unpackSample_bytes]
    exact execUnpack_of_not_failed _ hp

end Sys2Proof.Machine
end

section
/-! O19, O23, O29, O35 and O39. The three compensation commands outside and in `READY` (R59): what each answers, as one
equation per command. -/

namespace Sys2Proof.Machine

/-- Settles O35: the three commands are turned away by their admission (R59). -/
theorem compensationNeedsCalibration : Obligations.CompensationNeedsCalibration := by
  rintro _ s (⟨rawT, rfl⟩ | ⟨rawP, fine, rfl⟩ | ⟨rawH, fine, rfl⟩) hp
  · exact admission_of_empty hp
  · exact admission_of_empty hp
  · exact admission_of_empty hp

/-- Settles O39: in `READY` each command but CALDEC has one answer for each coefficient set and format. -/
theorem noHiddenCaching : Obligations.NoHiddenCaching := by
  intro i s1 s2 c hi hp1 hp2 hc1 hc2 hfmt
  have hans : ∃ p, Answers c s2.fmt i p := by
    cases i with
    | caldec a b => exact absurd rfl (hi a b)
    | unpack smp => exact ⟨_, unpack_answers c s2.fmt smp⟩
    | temp rawT =>
      obtain ⟨celsius, fine, h⟩ := temp_answers c s2.fmt rawT
      exact ⟨_, h⟩
    | press rawP fine =>
      obtain ⟨pascals, h⟩ := press_answers c s2.fmt rawP fine
      exact ⟨_, h⟩
    | hum rawH fine =>
      obtain ⟨percent, h⟩ := hum_answers c s2.fmt rawH fine
      exact ⟨_, h⟩
  obtain ⟨p, hp⟩ := hans
  exact ⟨p, hp s1 ⟨hp1, hc1, hfmt⟩, hp s2 ⟨hp2, hc2, rfl⟩⟩

/-! ### The answers in `READY` -/

section Ready

variable {s : State} {c : Coefs} (hp : s.phase = .ready) (hc : s.cal = some c)
include hp hc

theorem exec_temp_of_ready (rawT : BitVec 20) : exec (.temp rawT) s
    = .next (s.answer ⟨0, 0, some (withFormat s.fmt fun _ N => tempPayload N c rawT)⟩) :=
  admission_of_ready hp hc

theorem exec_press_of_ready (rawP : BitVec 20) (fine : BitVec 32) : exec (.press rawP fine) s
    = .next (s.answer ⟨0, 0, some (.pressure (withFormat s.fmt fun _ N => N.toNum (pressPascals N c rawP fine)))⟩) :=
  admission_of_ready hp hc

theorem exec_hum_of_ready (rawH : BitVec 16) (fine : BitVec 32) : exec (.hum rawH fine) s
    = .next (s.answer ⟨0, 0, some (.humidity (withFormat s.fmt fun _ N => N.toNum (humPercent N c rawH fine)))⟩) :=
  admission_of_ready hp hc

end Ready

/-- A function of the result may be applied within the number system. -/
theorem apply_withFormat {β γ : Type} (g : β → γ) (fmt : Fmt) (k : (α : Type) → NumSys α → β) :
    g (withFormat fmt k) = withFormat fmt fun α N => g (k α N) := by
  cases fmt <;> rfl

/-- Settles O19: the operation list is `tempPayload` written out. -/
theorem tempAnswersTheOperationList : Obligations.TempAnswersTheOperationList :=
  fun rawT _ _ hp hc => exec_temp_of_ready hp hc rawT

section Guard

variable {α : Type} {N : NumSys α} {c : Coefs} {fine : BitVec 32} (rawP : BitVec 20)

/-- The guard of PRESS fires (R65). -/
theorem pressPascals_of_guard (h : N.fis0 (pressDivisor N c (pressBase N fine)) = true) :
    pressPascals N c rawP fine = N.lit 0 :=
  if_pos h

/-- The guard of PRESS does not fire (R65). -/
theorem pressPascals_of_no_guard (h : N.fis0 (pressDivisor N c (pressBase N fine)) ≠ true) :
    pressPascals N c rawP fine = pressCorrect N c (pressQuotient N rawP (pressOffset N c (pressBase N fine))
      (pressDivisor N c (pressBase N fine))) :=
  if_neg h

end Guard

/-- The end of PRESS at its guard, and the other one (R64, R65). -/
theorem pressure_pressPascals {α : Type} (N : NumSys α) (c : Coefs) (rawP : BitVec 20) (fine : BitVec 32) :
    Payload.pressure (N.toNum (pressPascals N c rawP fine)) =
      if N.fis0 (pressDivisor N c (pressBase N fine)) then .pressure (N.toNum (N.lit 0))
      else .pressure (N.toNum (pressCorrect N c (pressQuotient N rawP (pressOffset N c (pressBase N fine))
        (pressDivisor N c (pressBase N fine))))) := by
  split
  · next h => rw [pressPascals_of_guard rawP h]
  · next h => rw [pressPascals_of_no_guard rawP h]

/-- Settles O23: the operation list is `pressPascals` written out, its guard outside the payload. -/
theorem pressAnswersTheOperationList : Obligations.PressAnswersTheOperationList := by
  intro rawP fine s c hp hc
  rw [exec_press_of_ready hp hc, apply_withFormat Payload.pressure]
  simp only [pressure_pressPascals]
  rfl

/-- Settles O29: the operation list and the clamp are `humPercent` written out. -/
theorem humAnswersTheOperationList : Obligations.HumAnswersTheOperationList := by
  intro rawH fine s c hp hc
  rw [exec_hum_of_ready hp hc, apply_withFormat Payload.humidity]
  rfl

end Sys2Proof.Machine
end

section
/-! O20, O24, O25 and O30. The formulas in `exact`: each primitive is the operation on rationals, and every division but the
one by `p20` is by a literal (R70). -/

namespace Sys2Proof

@[simp] theorem exactSys_ofInt (i : Int) : exactSys.ofInt i = (i : Rat) := rfl
@[simp] theorem exactSys_lit (n : Nat) : exactSys.lit n = (n : Rat) := rfl
@[simp] theorem exactSys_fadd (a b : Rat) : exactSys.fadd a b = a + b := rfl
@[simp] theorem exactSys_fsub (a b : Rat) : exactSys.fsub a b = a - b := rfl
@[simp] theorem exactSys_fmul (a b : Rat) : exactSys.fmul a b = a * b := rfl
@[simp] theorem exactSys_fis0 (a : Rat) : exactSys.fis0 a = decide (a = 0) := rfl
@[simp] theorem exactSys_fgt (a b : Rat) : exactSys.fgt a b = decide (b < a) := rfl
@[simp] theorem exactSys_flt (a b : Rat) : exactSys.flt a b = decide (a < b) := rfl
@[simp] theorem exactSys_ftrunc (a : Rat) : exactSys.ftrunc a = truncRat a := rfl
@[simp] theorem exactSys_toNum (a : Rat) : exactSys.toNum a = .exact a := rfl

@[simp] theorem exactSys_fdiv {a b : Rat} (h : b ≠ 0) : exactSys.fdiv a b = a / b := exactDiv_of_ne_zero h

theorem withFormat_exact {β : Type} {fmt : Fmt} (h : fmt = .exact) (k : (α : Type) → NumSys α → β) :
    withFormat fmt k = k Rat exactSys := by rw [h]; rfl

/-- The integer part of a non-negative rational is the largest integer not above it (R63). -/
theorem truncRat_of_nonneg {q : Rat} (h : 0 ≤ q) : (truncRat q : Rat) ≤ q ∧ q < (truncRat q : Rat) + 1 := by
  rw [truncRat, if_neg h.not_gt]
  exact ⟨Int.floor_le q, Int.lt_floor_add_one q⟩

/-- The integer part of a negative rational is the smallest integer not below it (R63). -/
theorem truncRat_of_neg {q : Rat} (h : q < 0) : q ≤ (truncRat q : Rat) ∧ (truncRat q : Rat) - 1 < q := by
  have hle : ((-q).floor : Rat) ≤ -q := Int.floor_le (-q)
  have hlt : -q < ((-q).floor : Rat) + 1 := Int.lt_floor_add_one (-q)
  rw [truncRat, if_pos h]
  push_cast
  constructor <;> linarith

end Sys2Proof

namespace Sys2Proof.Machine

/-! ### The ranges of the coefficients -/

/-- The magnitude of a coefficient is at most 2 to this power (R15). -/
def CalReg.magnitudeBits : CalReg → Nat
  | .T1 | .P1 => 16
  | .H1 | .H3 => 8
  | .H4 | .H5 => 11
  | .H6 => 7
  | .T2 | .T3 | .P2 | .P3 | .P4 | .P5 | .P6 | .P7 | .P8 | .P9 | .H2 => 15

theorem Coefs.int_abs_le (c : Coefs) (r : CalReg) : |(c.int r : Rat)| ≤ pow2 r.magnitudeBits := by
  match r with
  | .T1 | .P1 | .H1 | .H3 => exact toNat_abs_le_pow2 _
  | .T2 | .T3 | .P2 | .P3 | .P4 | .P5 | .P6 | .P7 | .P8 | .P9 | .H2 | .H4 | .H5 | .H6 => exact toInt_abs_le_pow2 _

/-! ### Temperature -/

section Temperature

variable (c : Coefs)

theorem tempSum_exact (rawT : BitVec 20) : tempSum exactSys c rawT =
    ((rawT.toNat : Rat) / 16384 - (c.int .T1 : Rat) / 1024) * (c.int .T2 : Rat)
      + ((rawT.toNat : Rat) / 131072 - (c.int .T1 : Rat) / 8192) ^ 2 * (c.int .T3 : Rat) := by
  simp [tempSum, sq]

/-- The closed form of R61. -/
theorem tempSum_exact_closed (rawT : BitVec 20) : tempSum exactSys c rawT =
    (2 ^ 20 * ((rawT.toNat : Rat) - 16 * (c.int .T1 : Rat)) * (c.int .T2 : Rat)
      + ((rawT.toNat : Rat) - 16 * (c.int .T1 : Rat)) ^ 2 * (c.int .T3 : Rat)) / 2 ^ 34 := by
  rw [tempSum_exact]; ring

/-- The range of `N` (R61). -/
theorem abs_raw_sub_T1_le (rawT : BitVec 20) : |(rawT.toNat : Rat) - 16 * (c.int .T1 : Rat)| ≤ 2 ^ 20 := by
  have hraw := rawT.isLt
  have hT1 := c.T1.isLt
  have h : |(rawT.toNat : Int) - 16 * c.int .T1| ≤ 2 ^ 20 := by
    rw [Coefs.int, abs_le]; omega
  exact_mod_cast h

/-- The bound of R62 in `exact`: each of the two summands is at most 2^21. -/
theorem tempSum_exact_abs_le (rawT : BitVec 20) : |tempSum exactSys c rawT| ≤ 2 ^ 22 := by
  have hn := abs_raw_sub_T1_le c rawT
  have hT2 : |(c.int .T2 : Rat)| ≤ 2 ^ 15 := pow2_natCast 15 ▸ c.int_abs_le .T2
  have hT3 : |(c.int .T3 : Rat)| ≤ 2 ^ 15 := pow2_natCast 15 ▸ c.int_abs_le .T3
  rw [tempSum_exact_closed]
  generalize (rawT.toNat : Rat) - 16 * (c.int .T1 : Rat) = n at *
  calc |(2 ^ 20 * n * (c.int .T2 : Rat) + n ^ 2 * (c.int .T3 : Rat)) / 2 ^ 34|
      ≤ (2 ^ 20 * |n| * |(c.int .T2 : Rat)| + |n| ^ 2 * |(c.int .T3 : Rat)|) / 2 ^ 34 := by
        rw [abs_div, abs_of_pos (show (0 : Rat) < 2 ^ 34 by norm_num)]
        gcongr
        refine (abs_add_le _ _).trans_eq ?_
        simp [abs_mul]
    _ ≤ (2 ^ 20 * 2 ^ 20 * 2 ^ 15 + (2 ^ 20) ^ 2 * 2 ^ 15) / 2 ^ 34 := by gcongr
    _ = 2 ^ 22 := by norm_num

/-- An integer in the range of R62 does not wrap in the 32-bit field. -/
theorem toInt_ofInt_of_temp_range {i : Int} (h : -2 ^ 22 ≤ i ∧ i ≤ 2 ^ 22) : (BitVec.ofInt 32 i).toInt = i :=
  BitVec.toInt_ofInt_eq_self (by decide) (by omega) (by omega)

theorem tempFine_exact_toInt (rawT : BitVec 20) :
    (tempFine exactSys (tempSum exactSys c rawT)).toInt = truncRat (tempSum exactSys c rawT) :=
  toInt_ofInt_of_temp_range (truncRat_abs (by exact_mod_cast tempSum_exact_abs_le c rawT))

end Temperature

/-- Settles O20: `t10` is the formula, and `fine` its integer part, which the field holds (R62). -/
theorem tempExactClosedForm : Obligations.TempExactClosedForm := by
  intro rawT s c hp hc hfmt v1 v2 n
  have hsum : tempSum exactSys c rawT = v1 + v2 := tempSum_exact c rawT
  have hfine := tempFine_exact_toInt c rawT
  have hans : exec (.temp rawT) s = .next (s.answer ⟨0, 0, some
      (.temperature (.exact (tempSum exactSys c rawT / 5120)) (tempFine exactSys (tempSum exactSys c rawT)))⟩) := by
    rw [exec_temp_of_ready hp hc, withFormat_exact hfmt]
    simp [tempPayload, tempCelsius]
  rw [hsum] at hans hfine
  refine ⟨hsum ▸ tempSum_exact_closed c rawT, _, hans, ?_⟩
  rw [hfine]
  exact ⟨truncRat_of_nonneg, truncRat_of_neg⟩

/-! ### Pressure -/

section Pressure

variable (c : Coefs)

theorem pressDivisor_exact (fine : BitVec 32) : pressDivisor exactSys c (pressBase exactSys fine) =
    (1 + pressSlope exactSys c (pressBase exactSys fine) / 32768) * (c.int .P1 : Rat) := by
  simp [pressDivisor]

theorem pressBase_exact (fine : BitVec 32) : pressBase exactSys fine = (fine.toInt : Rat) / 2 - 64000 := by
  simp [pressBase]

theorem pressSlope_exact (x : Rat) : pressSlope exactSys c x =
    ((c.int .P3 : Rat) * x * x / 524288 + (c.int .P2 : Rat) * x) / 524288 := by
  simp [pressSlope]

theorem pressOffset_exact (x : Rat) : pressOffset exactSys c x =
    (x * x * (c.int .P6 : Rat) / 32768 + x * (c.int .P5 : Rat) * 2) / 4 + (c.int .P4 : Rat) * 65536 := by
  simp [pressOffset]

/-- The one division by a computed value (R70). -/
theorem pressQuotient_exact (rawP : BitVec 20) (p11 : Rat) {p20 : Rat} (h : p20 ≠ 0) :
    pressQuotient exactSys rawP p11 p20 = (1048576 - (rawP.toNat : Rat) - p11 / 4096) * 6250 / p20 := by
  simp [pressQuotient, h]

theorem pressCorrect_exact (p : Rat) : pressCorrect exactSys c p =
    p + ((c.int .P9 : Rat) * p * p / 2147483648 + p * (c.int .P8 : Rat) / 32768 + (c.int .P7 : Rat)) / 16 := by
  simp [pressCorrect]

end Pressure

/-- Settles O24: the parts of the formula, put together at either end of the guard. -/
theorem pressExactFormula : Obligations.PressExactFormula := by
  intro rawP fine s c hp hc hfmt x v2 v1 p
  have hv1 : pressDivisor exactSys c (pressBase exactSys fine) = v1 := by
    rw [pressDivisor_exact, pressSlope_exact, pressBase_exact]
  have hv2 : pressOffset exactSys c (pressBase exactSys fine) = v2 := by
    rw [pressOffset_exact, pressBase_exact]
  rw [exec_press_of_ready hp hc, withFormat_exact hfmt, exactSys_toNum]
  by_cases h : v1 = 0
  · rw [pressPascals_of_guard rawP (by simpa [hv1] using h), if_pos h, exactSys_lit, Nat.cast_zero]; rfl
  · rw [pressPascals_of_no_guard rawP (by simpa [hv1] using h), hv1, hv2, pressQuotient_exact rawP v2 h, pressCorrect_exact,
      if_neg h]
    rfl

/-- Settles O25: of the two factors of the divisor one is zero. -/
theorem pressGuardFiresExactly : Obligations.PressGuardFiresExactly := by
  intro c fine x
  have hslope : pressSlope exactSys c x = ((c.int .P3 : Rat) * x ^ 2 / 2 ^ 19 + (c.int .P2 : Rat) * x) / 2 ^ 19 := by
    rw [pressSlope_exact]; ring
  have hfactor : 1 + pressSlope exactSys c x / 32768 = 0 ↔ pressSlope exactSys c x = -32768 := by
    constructor <;> intro h <;> linarith
  rw [exactSys_fis0, decide_eq_true_iff, pressDivisor_exact, pressBase_exact, mul_eq_zero, hfactor, hslope, Int.cast_eq_zero,
    or_comm]

/-! ### Humidity -/

theorem humUnclamped_exact (c : Coefs) (rawH : BitVec 16) (fine : BitVec 32) :
    let x : Rat := (fine.toInt : Rat) - 76800
    let y : Rat := ((rawH.toNat : Rat) - ((c.int .H4 : Rat) * 64 + (c.int .H5 : Rat) / 16384 * x)) *
      ((c.int .H2 : Rat) / 65536 *
        (1 + (c.int .H6 : Rat) / 67108864 * x * (1 + (c.int .H3 : Rat) / 67108864 * x)))
    humUnclamped exactSys c rawH fine = y * (1 - (c.int .H1 : Rat) * y / 524288) := by
  simp [humUnclamped, humLeft, humRight]

theorem clamp_exact (h : Rat) : clamp exactSys h = if 100 < h then 100 else if h < 0 then 0 else h := by
  simp [clamp]

/-- Settles O30: the unclamped humidity is the formula, and the clamp its two comparisons. -/
theorem humExactFormula : Obligations.HumExactFormula := by
  intro rawH fine s c hp hc hfmt x y h
  rw [exec_hum_of_ready hp hc, withFormat_exact hfmt, exactSys_toNum, humPercent, clamp_exact, humUnclamped_exact]
  rfl

end Sys2Proof.Machine
end

section
/-! O21, O22, O31 and O32. The number systems that `FMT` can name, and in each of them the magnitudes of TEMP and HUM: every
operation keeps a bound that is a power of two, and a product with a zero factor is a zero (R62, R70). -/

namespace Sys2Proof

/-! ### The number systems of the block -/

/-- The two kinds of number system that `FMT` names: the rationals, and an IEEE format wide enough for Laws/Primitives.lean
whose values a response carries as they are. -/
inductive NumSys.Standard : {α : Type} → NumSys α → Prop where
  | exact : Standard exactSys
  | ieee (f : FloatFormat) (toNum : Ieee → Number) (hf : f.AtLeast32) (hvalue : ∀ x, (toNum x).value = x.value) :
      Standard (ieeeSys f toNum)

/-- Whatever `FMT` names, all computations of a command are carried out in one and the same number system (R8, R11). -/
theorem exists_standard (fmt : Fmt) : ∃ (α : Type) (N : NumSys α), N.Standard ∧
    ∀ {β : Type} (k : (α : Type) → NumSys α → β), withFormat fmt k = k α N := by
  cases fmt with
  | exact => exact ⟨_, _, .exact, fun _ => rfl⟩
  | binary64 => exact ⟨_, _, .ieee _ _ FloatFormat.atLeast32_binary64 fun _ => rfl, fun _ => rfl⟩
  | binary32 => exact ⟨_, _, .ieee _ _ FloatFormat.atLeast32_binary32 fun _ => rfl, fun _ => rfl⟩

namespace Ieee

variable {f : FloatFormat}

theorem UpTo.value_zero {x : Ieee} (h : UpTo 0 x) : x.value = some 0 := by
  obtain ⟨q, hq, habs⟩ := h.value
  rw [hq, abs_nonpos_iff.mp habs]

theorem trunc_of_value {x : Ieee} {q : Rat} (h : x.value = some q) : x.trunc = truncRat q := by
  cases x <;> cases h
  rfl

/-! ### Zero operands -/

theorem representable_zero : f.Representable 0 := inFormat_zero (f := f) false

theorem UpTo.zero_mul {x y : Ieee} {B : Rat} (hx : UpTo 0 x) (hy : UpTo B y) : UpTo 0 (fmul f x y) :=
  fmul_upTo hx hy representable_zero (by simp)

theorem UpTo.mul_zero {x y : Ieee} {B : Rat} (hx : UpTo B x) (hy : UpTo 0 y) : UpTo 0 (fmul f x y) :=
  fmul_upTo hx hy representable_zero (by simp)

theorem UpTo.zero_add {x y : Ieee} (hx : UpTo 0 x) (hy : UpTo 0 y) : UpTo 0 (fadd f x y) :=
  fadd_upTo hx hy representable_zero (by simp)

theorem ofInt_zero_upTo {i : Int} (h : i = 0) : UpTo 0 (ofInt f i) := ofInt_upTo (by simp [h]) representable_zero

theorem fsub_self_upTo {x : Ieee} {B : Rat} (hx : UpTo B x) : UpTo 0 (fsub f x x) := by
  obtain ⟨s, m, rfl, -, -⟩ := hx
  have h : signed s m + signed (!s) m = 0 := by rw [signed_not]; ring
  simp only [fsub, negate, fadd, h, if_true]
  exact ⟨_, 0, rfl, le_rfl, le_rfl⟩

/-! ### One operation on operands bounded by powers of two -/

section Steps

variable (hf : f.AtLeast32) (m : Int) {x y : Ieee} {j k : Int}
include hf

theorem UpTo.mul (hx : UpTo (pow2 j) x) (hy : UpTo (pow2 k) y) (h : j + k ≤ m := by decide) (h1 : -149 ≤ m := by decide)
    (h2 : m < 128 := by decide) : UpTo (pow2 m) (fmul f x y) :=
  fmul_upTo_pow2 hx hy (hf.representable_pow2 h1 h2) h

theorem UpTo.add (hx : UpTo (pow2 j) x) (hy : UpTo (pow2 k) y) (hj : j + 1 ≤ m := by decide) (hk : k + 1 ≤ m := by decide)
    (h1 : -149 ≤ m := by decide) (h2 : m < 128 := by decide) : UpTo (pow2 m) (fadd f x y) :=
  fadd_upTo_pow2 hx hy (hf.representable_pow2 h1 h2) hj hk

theorem UpTo.sub (hx : UpTo (pow2 j) x) (hy : UpTo (pow2 k) y) (hj : j + 1 ≤ m := by decide) (hk : k + 1 ≤ m := by decide)
    (h1 : -149 ≤ m := by decide) (h2 : m < 128 := by decide) : UpTo (pow2 m) (fsub f x y) :=
  fsub_upTo_pow2 hx hy (hf.representable_pow2 h1 h2) hj hk

/-- A literal of the formulas, as the number it is (R12). -/
theorem ofInt_literal {n : Nat} (h : n ≤ 2 ^ 24 ∨ n = 2 ^ 26 ∨ n = 2 ^ 31) : ofInt f (n : Int) = .fin false n :=
  ofInt_natCast (hf.representable_literal h)

/-- A quotient by a literal of at least 2^`b`. -/
theorem fdiv_literal_upTo {m : Int} {n b : Nat} (hx : UpTo (pow2 j) x) (hb : 2 ^ b ≤ n)
    (hn : n ≤ 2 ^ 24 ∨ n = 2 ^ 26 ∨ n = 2 ^ 31) (hm : f.Representable (pow2 m)) (h : j - b ≤ m) :
    UpTo (pow2 m) (fdiv f x (ofInt f (n : Int))) := by
  rw [ofInt_literal hf hn]
  exact fdiv_upTo_pow2 hx (pow2_le_natCast hb) hm h

theorem UpTo.div (hx : UpTo (pow2 j) x) (n b : Nat) (hb : 2 ^ b ≤ n := by decide) (h : j - b ≤ m := by decide)
    (hn : n ≤ 2 ^ 24 ∨ n = 2 ^ 26 ∨ n = 2 ^ 31 := by decide) (h1 : -149 ≤ m := by decide) (h2 : m < 128 := by decide) :
    UpTo (pow2 m) (fdiv f x (ofInt f (n : Int))) :=
  fdiv_literal_upTo hf hx hb hn (hf.representable_pow2 h1 h2) h

theorem UpTo.zero_div (hx : UpTo 0 x) {n : Nat} (h0 : 0 < n) (hn : n ≤ 2 ^ 24) : UpTo 0 (fdiv f x (ofInt f (n : Int))) := by
  rw [lit_natCast hf hn]
  exact fdiv_upTo hx (Nat.cast_pos.mpr h0) le_rfl representable_zero (by simp)

/-- The quotient of two naturals is rounded once. -/
theorem fdiv_natCast {i n : Nat} (hi : i ≤ 2 ^ 24) (hn : n ≤ 2 ^ 24) (h0 : n ≠ 0) :
    fdiv f (ofInt f (i : Int)) (ofInt f (n : Int)) = f.round false ((i : Rat) / n) := by
  rw [lit_natCast hf hi, lit_natCast hf hn]
  simp [fdiv, h0]

end Steps

end Ieee

end Sys2Proof

namespace Sys2Proof.Machine

open Ieee

theorem Coefs.int_upTo {f : FloatFormat} (hf : f.AtLeast32) (c : Coefs) (r : CalReg) :
    UpTo (pow2 r.magnitudeBits) (ofInt f (c.int r)) :=
  ofInt_upTo_pow2 hf (c.int_abs_le r) (by cases r <;> decide) (by cases r <;> decide)

/-! ### Temperature -/

/-- `t3` and `t7` of the temperature formula: the difference of `raw_t / m` and `T1 / n` (R60). -/
def tempDifference (f : FloatFormat) (c : Coefs) (rawT : BitVec 20) (m n : Nat) : Ieee :=
  fsub f (fdiv f (ofInt f rawT.toNat) (ofInt f m)) (fdiv f (ofInt f (c.int .T1)) (ofInt f n))

section Temp

variable {f : FloatFormat} (hf : f.AtLeast32) (toNum : Ieee → Number) (c : Coefs) (rawT : BitVec 20)

theorem tempSum_ieee : tempSum (ieeeSys f toNum) c rawT =
    fadd f (fmul f (tempDifference f c rawT 16384 1024) (ofInt f (c.int .T2)))
      (fmul f (fmul f (tempDifference f c rawT 131072 8192) (tempDifference f c rawT 131072 8192)) (ofInt f (c.int .T3))) := by
  simp only [tempSum, tempDifference, ieeeSys]

include hf

theorem tempDifference_eq {m n : Nat} (hm0 : m ≠ 0) (hm : m ≤ 2 ^ 24) (hn0 : n ≠ 0) (hn : n ≤ 2 ^ 24) :
    tempDifference f c rawT m n
      = fsub f (f.round false ((rawT.toNat : Rat) / m)) (f.round false ((c.T1.toNat : Rat) / n)) := by
  have hraw := rawT.isLt
  have hT1 := c.T1.isLt
  have hdiv : fdiv f (ofInt f (c.int .T1)) (ofInt f n) = f.round false ((c.T1.toNat : Rat) / n) :=
    fdiv_natCast hf (by omega) hn hn0
  rw [tempDifference, hdiv, fdiv_natCast hf (by omega) hm hm0]

/-- A quotient of naturals is rounded to a non-negative value that keeps its bound. -/
theorem round_quotient_upTo {k i n : Nat} (hk : k < 128) (hn : 0 < n) (hi : i ≤ 2 ^ k * n) :
    SignedUpTo false (pow2 k) (f.round false ((i : Rat) / n)) := by
  refine round_upTo false (by positivity) ?_ (hf.representable_pow2 (by omega) (by omega))
  rw [div_le_iff₀ (Nat.cast_pos.mpr hn), pow2_natCast]
  exact_mod_cast hi

/-- The two quotients of a difference are not negative, so it is no larger than they are (R62). -/
theorem tempDifference_upTo (k : Nat) {n : Nat} (hn0 : n ≠ 0) (hkn : 2 ^ 16 ≤ 2 ^ k * n) (hn : 16 * n ≤ 2 ^ 24)
    (hk : k < 128) : UpTo (pow2 k) (tempDifference f c rawT (16 * n) n) := by
  have hraw := rawT.isLt
  have hT1 := c.T1.isLt
  rw [tempDifference_eq hf c rawT (by omega) hn hn0 (by omega)]
  exact fsub_upTo_of_nonneg (round_quotient_upTo hf hk (by omega) (by linarith))
    (round_quotient_upTo hf hk (by omega) (by omega)) (hf.representable_pow2 (by omega) (by omega))

/-- At the corner `raw_t = 16 * T1` the two quotients are one (R60). -/
theorem tempDifference_upTo_zero {n : Nat} (hn0 : n ≠ 0) (hn : 16 * n ≤ 2 ^ 24) (h : (rawT.toNat : Int) = 16 * c.int .T1) :
    UpTo 0 (tempDifference f c rawT (16 * n) n) := by
  have hT1 := c.T1.isLt
  have hraw : rawT.toNat = 16 * c.T1.toNat := by simp only [Coefs.int] at h; omega
  have hquot : (rawT.toNat : Rat) / (16 * n : Nat) = (c.T1.toNat : Rat) / n := by
    rw [hraw]; push_cast; exact mul_div_mul_left _ _ (by norm_num)
  rw [tempDifference_eq hf c rawT (by omega) hn hn0 (by omega), hquot]
  exact fsub_self_upTo (round_quotient_upTo hf (k := 16) (by decide) (by omega) (by nlinarith [Nat.pos_of_ne_zero hn0])).upTo

/-- The difference `t3` is at most 64 (R62). -/
theorem tempDifference_t3_upTo : UpTo (pow2 6) (tempDifference f c rawT 16384 1024) :=
  tempDifference_upTo hf c rawT 6 (n := 1024) (by decide) (by decide) (by decide) (by decide)

/-- The difference `t7` is at most 8 (R62). -/
theorem tempDifference_t7_upTo : UpTo (pow2 3) (tempDifference f c rawT 131072 8192) :=
  tempDifference_upTo hf c rawT 3 (n := 8192) (by decide) (by decide) (by decide) (by decide)

theorem tempSum_ieee_upTo : UpTo (pow2 22) (tempSum (ieeeSys f toNum) c rawT) := by
  have h3 := tempDifference_t3_upTo hf c rawT
  have h7 := tempDifference_t7_upTo hf c rawT
  rw [tempSum_ieee]
  exact .add hf 22 (.mul hf 21 h3 (c.int_upTo hf .T2)) (.mul hf 21 (.mul hf 6 h7 h7) (c.int_upTo hf .T3))

/-- At either corner of R60 both summands are zeros. -/
theorem tempSum_ieee_upTo_zero (h : (rawT.toNat : Int) = 16 * c.int .T1 ∨ (c.int .T2 = 0 ∧ c.int .T3 = 0)) :
    UpTo 0 (tempSum (ieeeSys f toNum) c rawT) := by
  rw [tempSum_ieee]
  rcases h with h | ⟨hT2, hT3⟩
  · have h3 : UpTo 0 (tempDifference f c rawT 16384 1024) :=
      tempDifference_upTo_zero hf c rawT (n := 1024) (by decide) (by decide) h
    have h7 : UpTo 0 (tempDifference f c rawT 131072 8192) :=
      tempDifference_upTo_zero hf c rawT (n := 8192) (by decide) (by decide) h
    exact (h3.zero_mul (c.int_upTo hf .T2)).zero_add ((h7.zero_mul h7).zero_mul (c.int_upTo hf .T3))
  · have h3 := tempDifference_t3_upTo hf c rawT
    have h7 := tempDifference_t7_upTo hf c rawT
    exact (h3.mul_zero (ofInt_zero_upTo hT2)).zero_add ((UpTo.mul hf 6 h7 h7).mul_zero (ofInt_zero_upTo hT3))

theorem tempCelsius_ieee_upTo {t10 : Ieee} (h : UpTo (pow2 22) t10) : UpTo (pow2 10) (tempCelsius (ieeeSys f toNum) t10) :=
  h.div hf 10 5120 12

theorem tempCelsius_ieee_upTo_zero {t10 : Ieee} (h : UpTo 0 t10) : UpTo 0 (tempCelsius (ieeeSys f toNum) t10) :=
  h.zero_div hf (n := 5120) (by decide) (by decide)

end Temp

section Standard

variable {α : Type} {N : NumSys α} (hN : N.Standard) (c : Coefs) (rawT : BitVec 20)
include hN

/-- The range of `t10`, its integer part, and `celsius` (R62, R70). -/
theorem temp_bounded : ∃ q, (N.toNum (tempSum N c rawT)).value = some q ∧ |q| ≤ 2 ^ 22 ∧
    N.ftrunc (tempSum N c rawT) = truncRat q ∧ (N.toNum (tempCelsius N (tempSum N c rawT))).value.isSome = true := by
  cases hN with
  | exact => exact ⟨_, rfl, tempSum_exact_abs_le c rawT, rfl, rfl⟩
  | ieee f toNum hf hvalue =>
    have hsum := tempSum_ieee_upTo hf toNum c rawT
    obtain ⟨q, hq, habs⟩ := hsum.value
    obtain ⟨r, hr, -⟩ := (tempCelsius_ieee_upTo hf toNum hsum).value
    exact ⟨q, (hvalue _).trans hq, pow2_natCast 22 ▸ habs, trunc_of_value hq,
      Option.isSome_iff_exists.mpr ⟨r, (hvalue _).trans hr⟩⟩

/-- `t10` and `celsius` at the corners of R60. -/
theorem temp_zero (h : (rawT.toNat : Int) = 16 * c.int .T1 ∨ (c.int .T2 = 0 ∧ c.int .T3 = 0)) :
    N.ftrunc (tempSum N c rawT) = 0 ∧ (N.toNum (tempCelsius N (tempSum N c rawT))).value = some 0 := by
  cases hN with
  | exact =>
    have hsum : tempSum exactSys c rawT = 0 := by
      rw [tempSum_exact_closed]
      rcases h with h | ⟨hT2, hT3⟩
      · have hn : (rawT.toNat : Rat) = 16 * (c.int .T1 : Rat) := by exact_mod_cast h
        simp [hn]
      · simp [hT2, hT3]
    rw [hsum]
    exact ⟨rfl, by simp [tempCelsius, Number.value]⟩
  | ieee f toNum hf hvalue =>
    have hsum := tempSum_ieee_upTo_zero hf toNum c rawT h
    exact ⟨trunc_of_value hsum.value_zero, (hvalue _).trans (tempCelsius_ieee_upTo_zero hf toNum hsum).value_zero⟩

end Standard

/-- Settles O21: the number system that `FMT` names keeps the bounds. -/
theorem tempFineStaysInRange : Obligations.TempFineStaysInRange := by
  intro rawT s c hp hc
  obtain ⟨α, N, hN, hfmt⟩ := exists_standard s.fmt
  obtain ⟨q, hq, habs, htrunc, hcelsius⟩ := temp_bounded hN c rawT
  have hrange : -2 ^ 22 ≤ truncRat q ∧ truncRat q ≤ 2 ^ 22 := truncRat_abs (by exact_mod_cast habs)
  have hfine : (tempFine N (tempSum N c rawT)).toInt = truncRat q := by
    rw [tempFine, htrunc, toInt_ofInt_of_temp_range hrange]
  have hans := exec_temp_of_ready hp hc rawT
  rw [hfmt] at hans
  rw [hfmt]
  exact ⟨_, _, q, hans, hq, habs, hfine, by rw [hfine]; exact hrange.1, by rw [hfine]; exact hrange.2, hcelsius⟩

/-- Settles O22: at the corners `t10` is a zero, and so are its integer part and its quotient. -/
theorem tempIsZeroAtItsCorners : Obligations.TempIsZeroAtItsCorners := by
  intro rawT s c hp hc h
  obtain ⟨α, N, hN, hfmt⟩ := exists_standard s.fmt
  obtain ⟨hfine, hcelsius⟩ := temp_zero hN c rawT h
  have hans := exec_temp_of_ready hp hc rawT
  rw [hfmt, tempPayload, tempFine, hfine] at hans
  exact ⟨_, hans, hcelsius⟩

/-! ### Humidity -/

/-- `h14`, the inner factor of the right factor of the humidity formula (R67). -/
def humInner (f : FloatFormat) (c : Coefs) (h1 : Ieee) : Ieee :=
  let h9 := fmul f (fdiv f (ofInt f (c.int .H6)) (ofInt f (67108864 : Nat))) h1
  let h11 := fmul f (fdiv f (ofInt f (c.int .H3)) (ofInt f (67108864 : Nat))) h1
  fadd f (ofInt f (1 : Nat)) (fmul f h9 (fadd f (ofInt f (1 : Nat)) h11))

section Hum

variable {f : FloatFormat} (hf : f.AtLeast32) (toNum : Ieee → Number) (c : Coefs)

theorem humRight_ieee (h1 : Ieee) : humRight (ieeeSys f toNum) c h1 =
    fmul f (fdiv f (ofInt f (c.int .H2)) (ofInt f (65536 : Nat))) (humInner f c h1) := by
  simp only [humRight, humInner, ieeeSys]

include hf

theorem humBase_ieee_upTo (fine : BitVec 32) : UpTo (pow2 32) (fsub f (ofInt f fine.toInt) (ofInt f (76800 : Nat))) :=
  have hfine : UpTo (pow2 31) (ofInt f fine.toInt) := ofInt_upTo_pow2 hf (toInt_abs_le_pow2 fine) (by decide) (by decide)
  .sub hf 32 hfine (lit_upTo hf 76800 17 (by decide) (by decide))

theorem humLeft_ieee_upTo (rawH : BitVec 16) {h1 : Ieee} (h : UpTo (pow2 32) h1) :
    UpTo (pow2 31) (humLeft (ieeeSys f toNum) c rawH h1) := by
  have hraw : UpTo (pow2 16) (ofInt f rawH.toNat) := ofInt_upTo_pow2 hf (toNat_abs_le_pow2 rawH) (by decide) (by decide)
  have h2 := UpTo.mul hf 17 (c.int_upTo hf .H4) (lit_upTo hf 64 6 (by decide) (by decide))
  have h3 := (c.int_upTo hf .H5).div hf (-3) 16384 14
  exact .sub hf 31 hraw (UpTo.add hf 30 h2 (UpTo.mul hf 29 h3 h))

theorem humInner_upTo {h1 : Ieee} (h : UpTo (pow2 32) h1) : UpTo (pow2 29) (humInner f c h1) := by
  have one := lit_upTo hf 1 0 (by decide) (by decide)
  have h9 := UpTo.mul hf 13 ((c.int_upTo hf .H6).div hf (-19) 67108864 26) h
  have h11 := UpTo.mul hf 14 ((c.int_upTo hf .H3).div hf (-18) 67108864 26) h
  exact .add hf 29 one (UpTo.mul hf 28 h9 (UpTo.add hf 15 one h11))

theorem humRight_ieee_upTo {h1 : Ieee} (h : UpTo (pow2 32) h1) : UpTo (pow2 28) (humRight (ieeeSys f toNum) c h1) := by
  rw [humRight_ieee]
  exact .mul hf 28 ((c.int_upTo hf .H2).div hf (-1) 65536 16) (humInner_upTo hf c h)

theorem humRight_ieee_upTo_zero (hH2 : c.int .H2 = 0) {h1 : Ieee} (h : UpTo (pow2 32) h1) :
    UpTo 0 (humRight (ieeeSys f toNum) c h1) := by
  rw [humRight_ieee]
  exact ((ofInt_zero_upTo hH2).zero_div hf (by decide) (by decide)).zero_mul (humInner_upTo hf c h)

/-- `h19`, the last factor of the humidity formula, from `h16`. -/
theorem humLast_ieee_upTo {h16 : Ieee} (h : UpTo (pow2 59) h16) :
    UpTo (pow2 49) (fsub f (ofInt f (1 : Nat)) (fdiv f (fmul f (ofInt f (c.int .H1)) h16) (ofInt f (524288 : Nat)))) :=
  .sub hf 49 (lit_upTo hf 1 0 (by decide) (by decide)) ((UpTo.mul hf 67 (c.int_upTo hf .H1) h).div hf 48 524288 19)

theorem humUnclamped_ieee_upTo (rawH : BitVec 16) (fine : BitVec 32) :
    UpTo (pow2 108) (humUnclamped (ieeeSys f toNum) c rawH fine) := by
  have h1 := humBase_ieee_upTo hf fine
  have h16 := UpTo.mul hf 59 (humLeft_ieee_upTo hf toNum c rawH h1) (humRight_ieee_upTo hf toNum c h1)
  exact .mul hf 108 h16 (humLast_ieee_upTo hf c h16)

/-- With `H2 = 0` the right factor is a zero, and with it the product (R67). -/
theorem humUnclamped_ieee_upTo_zero (h : c.int .H2 = 0) (rawH : BitVec 16) (fine : BitVec 32) :
    UpTo 0 (humUnclamped (ieeeSys f toNum) c rawH fine) := by
  have h1 := humBase_ieee_upTo hf fine
  have h16 := UpTo.mul_zero (f := f) (humLeft_ieee_upTo hf toNum c rawH h1) (humRight_ieee_upTo_zero hf toNum c h h1)
  exact h16.zero_mul (humLast_ieee_upTo hf c (h16.mono (pow2_pos _).le))

/-- The comparisons of the clamp are those of the values (R68). -/
theorem clamp_ieee_value {x : Ieee} {q : Rat} (h : x.value = some q) :
    (clamp (ieeeSys f toNum) x).value = some (if 100 < q then 100 else if q < 0 then 0 else q) := by
  have hlit : ∀ n : Nat, n ≤ 2 ^ 24 → (ieeeSys f toNum).lit n = .fin false n := fun n hn => lit_natCast hf hn
  match x, h with
  | .fin s m, rfl =>
    have hgt : (ieeeSys f toNum).fgt (.fin s m) (.fin false (100 : Nat)) = true ↔ 100 < signed s m := by
      simp [ieeeSys, Ieee.lt, signed]
    have hlt : (ieeeSys f toNum).flt (.fin s m) (.fin false (0 : Nat)) = true ↔ signed s m < 0 := by
      simp [ieeeSys, Ieee.lt, signed]
    simp only [clamp, hlit 100 (by decide), hlit 0 (by decide), hgt, hlt]
    split_ifs <;> simp [Ieee.value, signed]

end Hum

section Standard

variable {α : Type} {N : NumSys α} (hN : N.Standard)
include hN

theorem clamp_value {x : α} {q : Rat} (h : (N.toNum x).value = some q) :
    (N.toNum (clamp N x)).value = some (if 100 < q then 100 else if q < 0 then 0 else q) := by
  cases hN with
  | exact =>
    cases h
    rw [clamp_exact]; rfl
  | ieee f toNum hf hvalue => exact (hvalue _).trans (clamp_ieee_value hf toNum ((hvalue x).symm.trans h))

theorem humUnclamped_value (c : Coefs) (rawH : BitVec 16) (fine : BitVec 32) :
    ∃ q, (N.toNum (humUnclamped N c rawH fine)).value = some q := by
  cases hN with
  | exact => exact ⟨_, rfl⟩
  | ieee f toNum hf hvalue =>
    obtain ⟨q, hq, -⟩ := (humUnclamped_ieee_upTo hf toNum c rawH fine).value
    exact ⟨q, (hvalue _).trans hq⟩

theorem humUnclamped_value_zero {c : Coefs} (h : c.int .H2 = 0) (rawH : BitVec 16) (fine : BitVec 32) :
    (N.toNum (humUnclamped N c rawH fine)).value = some 0 := by
  cases hN with
  | exact => simp [humUnclamped_exact, h, Number.value]
  | ieee f toNum hf hvalue => exact (hvalue _).trans (humUnclamped_ieee_upTo_zero hf toNum c h rawH fine).value_zero

end Standard

/-- Settles O31: the humidity before the clamp is finite, and the clamp keeps a finite value within its ends. -/
theorem humPercentIsBetween0And100 : Obligations.HumPercentIsBetween0And100 := by
  intro rawH fine s c hp hc
  obtain ⟨α, N, hN, hfmt⟩ := exists_standard s.fmt
  obtain ⟨q, hq⟩ := humUnclamped_value hN c rawH fine
  have hans := exec_hum_of_ready hp hc rawH fine
  rw [hfmt] at hans
  refine ⟨_, _, hans, clamp_value hN hq, ?_, ?_⟩ <;> split_ifs <;> linarith

/-- Settles O32: the humidity before the clamp is a zero, which passes it. -/
theorem humIsZeroWhenH2IsZero : Obligations.HumIsZeroWhenH2IsZero := by
  intro rawH fine s c hp hc h
  obtain ⟨α, N, hN, hfmt⟩ := exists_standard s.fmt
  have hvalue := clamp_value hN (humUnclamped_value_zero hN h rawH fine)
  have hans := exec_hum_of_ready hp hc rawH fine
  rw [hfmt] at hans
  exact ⟨_, hans, hvalue.trans (by norm_num)⟩

end Sys2Proof.Machine
end

section
/-! O26, O27 and O28. PRESS in the IEEE formats: when the divisor is a zero and how small it can be otherwise (R66), and what
of the formula stays finite (R70, R71). -/

namespace Sys2Proof

/-! ### The first factor of the divisor: one plus a value of the format -/

theorem signed_eq_neg_iff {s : Bool} {m a : Rat} (hm : 0 ≤ m) (ha : 0 < a) : signed s m = -a ↔ s = true ∧ m = a := by
  cases s
  · simp only [signed, Bool.false_eq_true, if_false, false_and, iff_false]
    intro h; linarith
  · simp [signed]

theorem le_abs_intCast_mul {i : Int} {u : Rat} (hu : 0 < u) (h : (i : Rat) * u ≠ 0) : u ≤ |(i : Rat) * u| := by
  have hi : i ≠ 0 := by rintro rfl; simp at h
  have h1 : (1 : Rat) ≤ |(i : Rat)| := by rw [← Int.cast_abs]; exact_mod_cast Int.one_le_abs hi
  rw [abs_mul, abs_of_pos hu]
  exact le_mul_of_one_le_left hu.le h1

namespace FloatFormat

variable {f : FloatFormat}

/-- A value of the format from one half on is a multiple of half the unit of the last place of 1. -/
theorem OnGrid.multiple_of_half_le {d : Rat} (hd : f.OnGrid d) (h : pow2 (-1) ≤ d) :
    ∃ k : Nat, d = k * pow2 (-1 - f.fracBits) := by
  have hpos : 0 < d := (pow2_pos _).trans_le h
  obtain ⟨n, hn⟩ := f.onGrid_multiple hd hpos
  have hexp : -1 < exponentOf d + 1 := lt_of_pow2_lt_pow2 (h.trans_lt (exponentOf_spec hpos).2)
  obtain ⟨e, he⟩ := Int.eq_ofNat_of_zero_le (show 0 ≤ f.ulpExp d - (-1 - f.fracBits) by unfold ulpExp; omega)
  refine ⟨n * 2 ^ e, ?_⟩
  rw [Nat.cast_mul, ← pow2_ofNat, mul_assoc, ← pow2_add]
  conv_lhs => rw [hn]
  congr 2; omega

/-- One plus a value of the format is zero or at least half the unit of the last place of 1 in magnitude (R66). -/
theorem OnGrid.one_add_signed_ge {d : Rat} (hd : f.OnGrid d) {s : Bool} (h : 1 + signed s d ≠ 0) :
    pow2 (-1 - f.fracBits) ≤ |1 + signed s d| := by
  have hhalf : pow2 (-1 - f.fracBits) ≤ pow2 (-1) := pow2_le_pow2 (by omega)
  have half : pow2 (-1) = 1 / 2 := by rw [pow2_eq_zpow]; norm_num
  cases s with
  | false =>
    simp only [signed, Bool.false_eq_true, if_false]
    rw [abs_of_nonneg (by linarith [hd.nonneg])]
    linarith [hd.nonneg]
  | true =>
    simp only [signed, if_true] at h ⊢
    rcases lt_or_ge d (pow2 (-1)) with hlt | hge
    · rw [abs_of_nonneg (by linarith)]; linarith
    · obtain ⟨k, hk⟩ := hd.multiple_of_half_le hge
      have hone : (1 : Rat) = ((2 ^ (f.fracBits + 1) : Nat) : Rat) * pow2 (-1 - f.fracBits) := by
        rw [← pow2_ofNat, ← pow2_add, pow2_eq_zpow]
        push_cast
        ring_nf
        simp
      have hdiff : 1 + -d = (((2 ^ (f.fracBits + 1) : Nat) - (k : Int) : Int) : Rat) * pow2 (-1 - f.fracBits) := by
        rw [hk]; conv_lhs => rw [hone]
        push_cast; ring
      rw [hdiff] at h ⊢
      exact le_abs_intCast_mul (pow2_pos _) h

theorem onGrid_one (hf : f.AtLeast32) : f.OnGrid 1 := by
  exact Nat.cast_one (R := Rat) ▸ (hf.representable_natCast (n := 1) (by decide)).2

/-- A value of the format from 2^14 on is divided by 2^15 without leaving the format. -/
theorem OnGrid.div_of_le (hf : f.AtLeast32) {m : Rat} (hm : f.OnGrid m) (h : pow2 14 ≤ m) : f.OnGrid (m / pow2 15) := by
  obtain ⟨k, e, hk, -, rfl⟩ := hm
  have hlt : (k : Rat) * pow2 e < pow2 (((f.fracBits + 1 : Nat) : Int) + e) := by
    rw [pow2_add, pow2_ofNat]
    exact mul_lt_mul_of_pos_right (by exact_mod_cast hk) (pow2_pos e)
  have hexp := lt_of_pow2_lt_pow2 (h.trans_lt hlt)
  have hmin := hf.eMin_le
  refine ⟨k, e - 15, hk, by push_cast at hexp; omega, ?_⟩
  rw [div_eq_iff (pow2_pos 15).ne', mul_assoc, ← pow2_add, sub_add_cancel]

/-- A magnitude of the format, divided by 2^15, is rounded to 1 only when it is 2^15: there the quotient is exact (R66). -/
theorem roundMag_div_eq_one_iff (hf : f.AtLeast32) {m : Rat} (hm : f.OnGrid m) : f.roundMag (m / 32768) = 1 ↔ m = 32768 := by
  have h15 : pow2 15 = 32768 := (pow2_natCast 15).trans (by norm_num)
  constructor
  · intro h
    rcases lt_or_ge m (pow2 14) with hlt | hge
    · have hhalf : m / 32768 ≤ pow2 (-1) := by
        rw [← h15, div_le_iff₀ (pow2_pos 15), ← pow2_add]; exact hlt.le
      have hmin := hf.eMin_le
      have hle := f.roundMag_le_of_onGrid (div_nonneg hm.nonneg (by norm_num)) (f.onGrid_pow2 (k := -1) (by omega)) hhalf
      rw [h, pow2_eq_zpow] at hle
      norm_num at hle
    · have hgrid := h15 ▸ hm.div_of_le hf hge
      rw [f.roundMag_of_onGrid hgrid] at h
      linarith
  · rintro rfl
    rw [div_self (by norm_num), f.roundMag_of_onGrid (onGrid_one hf)]

/-- Half the unit of the last place of 1 is a value of the format. -/
theorem onGrid_half_ulp_one (hf : f.AtLeast32) : f.OnGrid (pow2 (-1 - f.fracBits)) := by
  have hmin := hf.eMin_le
  exact f.onGrid_pow2 (by omega)

end FloatFormat

namespace Ieee

variable {f : FloatFormat}

/-- A finite sum is at least each value of the format that the exact sum reaches. -/
theorem le_of_fadd_eq_fin {s t z : Bool} {a b n u : Rat} (hu0 : 0 < u) (hu : f.OnGrid u)
    (h : u ≤ |signed s a + signed t b|) (heq : fadd f (.fin s a) (.fin t b) = .fin z n) : u ≤ n := by
  have hsum : signed s a + signed t b ≠ 0 := abs_pos.mp (hu0.trans_le h)
  simp only [fadd, if_neg hsum, FloatFormat.round] at heq
  split at heq <;> cases heq
  exact f.le_roundMag_of_onGrid hu h

/-- `p18` from `p17`: the magnitude is rounded once, the sign kept. -/
theorem fdiv_32768 (hf : f.AtLeast32) (s : Bool) {m : Rat} (hm0 : 0 ≤ m) (hm : m ≤ pow2 40) :
    fdiv f (.fin s m) (ofInt f (32768 : Nat)) = .fin s (f.roundMag (m / 32768)) := by
  have hle : m / 32768 ≤ pow2 40 := (div_le_self hm0 (by norm_num)).trans hm
  have hmin := hf.eMin_le
  have htop := hf.le_eTop
  obtain ⟨hround, -, -⟩ := f.round_of_le_pow2 s (div_nonneg hm0 (by norm_num)) hle (by omega) (by omega)
  rw [lit_natCast hf (by decide)]
  simpa [fdiv] using hround

/-- `p19` from `p17`: a finite value that is a zero exactly when `p17` is -32768, and not small otherwise (R66). -/
theorem one_add_div_spec (hf : f.AtLeast32) {x : Ieee} (hx : UpTo (pow2 40) x) (hfmt : x.InFormat f) :
    ∃ z n, fadd f (ofInt f (1 : Nat)) (fdiv f x (ofInt f (32768 : Nat))) = .fin z n ∧ 0 ≤ n ∧ n ≤ pow2 26 ∧
      (n = 0 ↔ x.value = some (-32768)) ∧ (n ≠ 0 → pow2 (-1 - f.fracBits) ≤ n) := by
  have h18 := hx.div hf 25 32768 15
  have h19 := UpTo.add hf 26 (lit_upTo hf 1 0 (by decide) (by decide)) h18
  obtain ⟨z, n, heq, hn0, hn⟩ := h19
  obtain ⟨s, m, rfl, hm0, hm⟩ := hx
  refine ⟨z, n, heq, hn0, hn, ?_⟩
  have hgrid : f.OnGrid (f.roundMag (m / 32768)) := f.roundMag_onGrid _ (div_nonneg hm0 (by norm_num))
  rw [fdiv_32768 hf s hm0 hm, lit_natCast hf (by decide), Nat.cast_one] at heq
  have hzero : n = 0 ↔ 1 + signed s (f.roundMag (m / 32768)) = 0 :=
    fadd_fin_eq_zero_iff (FloatFormat.onGrid_one hf) hgrid heq
  constructor
  · calc n = 0 ↔ signed s (f.roundMag (m / 32768)) = -1 := by rw [hzero]; constructor <;> intro h <;> linarith
      _ ↔ s = true ∧ m = 32768 := by
        rw [signed_eq_neg_iff hgrid.nonneg one_pos, FloatFormat.roundMag_div_eq_one_iff hf hfmt.2]
      _ ↔ (Ieee.fin s m).value = some (-32768) := by
        rw [Ieee.value, Option.some_inj, signed_eq_neg_iff hm0 (by norm_num)]
  · intro h
    exact le_of_fadd_eq_fin (s := false) (a := 1) (pow2_pos _) (FloatFormat.onGrid_half_ulp_one hf)
      (hgrid.one_add_signed_ge (mt hzero.mpr h)) heq

/-- A product with a natural number is a zero exactly when a factor is, and no smaller than the other factor otherwise. -/
theorem fmul_natCast_spec (hf : f.AtLeast32) {z : Bool} {n u : Rat} {i : Nat} (hn0 : 0 ≤ n) (hn : n ≤ pow2 26)
    (hi : i ≤ 2 ^ 16) (hu0 : 0 < u) (hu : f.OnGrid u) (hun : n ≠ 0 → u ≤ n) :
    ∃ d, fmul f (.fin z n) (ofInt f (i : Int)) = .fin z d ∧ (d = 0 ↔ i = 0 ∨ n = 0) ∧ (d ≠ 0 → u ≤ d) := by
  have hmin := hf.eMin_le
  have htop := hf.le_eTop
  have hle : n * i ≤ pow2 (26 + 16) := by
    rw [pow2_add]; exact mul_le_mul hn (natCast_le_pow2 hi) (Nat.cast_nonneg i) (pow2_pos _).le
  obtain ⟨hround, -, -⟩ := f.round_of_le_pow2 z (mul_nonneg hn0 (Nat.cast_nonneg i)) hle (by omega) (by omega)
  have hlarge : i ≠ 0 → n ≠ 0 → u ≤ f.roundMag (n * i) := fun hi0 hne =>
    f.le_roundMag_of_onGrid hu ((hun hne).trans (le_mul_of_one_le_right hn0 (by exact_mod_cast Nat.pos_of_ne_zero hi0)))
  have hzero : f.roundMag (n * i) = 0 ↔ i = 0 ∨ n = 0 := by
    constructor
    · intro h
      by_contra hne
      push Not at hne
      exact absurd (hlarge hne.1 hne.2) (by rw [h]; exact hu0.not_ge)
    · rintro (rfl | rfl) <;> simp [f.roundMag_zero]
  refine ⟨f.roundMag (n * i), ?_, hzero, fun h => ?_⟩
  · rw [lit_natCast hf (by omega)]
    simpa [fmul] using hround
  · rw [Ne, hzero, not_or] at h
    exact hlarge h.1 h.2

end Ieee

end Sys2Proof

namespace Sys2Proof.Machine

open Ieee

section Press

variable {f : FloatFormat} (hf : f.AtLeast32) (toNum : Ieee → Number) (c : Coefs)

/-! ### The divisor -/

theorem pressSlope_inFormat (p2 : Ieee) : Ieee.InFormat f (pressSlope (ieeeSys f toNum) c p2) :=
  inFormat_fdiv (inFormat_fadd _ _) (inFormat_ofInt _)

include hf

theorem pressBase_upTo (fine : BitVec 32) : UpTo (pow2 31) (pressBase (ieeeSys f toNum) fine) := by
  have hfine : UpTo (pow2 31) (ofInt f fine.toInt) := ofInt_upTo_pow2 hf (toInt_abs_le_pow2 fine) (by decide) (by decide)
  exact .sub hf 31 (hfine.div hf 30 2 1) (lit_upTo hf 64000 16 (by decide) (by decide))

theorem pressSlope_upTo {p2 : Ieee} (h : UpTo (pow2 31) p2) : UpTo (pow2 40) (pressSlope (ieeeSys f toNum) c p2) := by
  have h13 := UpTo.mul hf 77 (UpTo.mul hf 46 (c.int_upTo hf .P3) h) h
  have h15 := UpTo.mul hf 46 (c.int_upTo hf .P2) h
  exact (UpTo.add hf 59 (h13.div hf 58 524288 19) h15).div hf 40 524288 19

/-- The divisor is finite, a zero exactly as R66 says, and otherwise at least half the unit of the last place of 1. -/
theorem pressDivisor_spec {p2 : Ieee} (h : UpTo (pow2 31) p2) :
    ∃ z d, pressDivisor (ieeeSys f toNum) c p2 = .fin z d ∧
      (d = 0 ↔ c.int .P1 = 0 ∨ (pressSlope (ieeeSys f toNum) c p2).value = some (-32768)) ∧
      (d ≠ 0 → pow2 (-1 - f.fracBits) ≤ d) := by
  obtain ⟨z, n, h19, hn0, hn, hzero, hlarge⟩ :=
    one_add_div_spec hf (pressSlope_upTo hf toNum c h) (pressSlope_inFormat toNum c p2)
  have hP1 := c.P1.isLt
  obtain ⟨d, h20, hd, hdlarge⟩ := fmul_natCast_spec hf (z := z) (i := c.P1.toNat) hn0 hn (by omega) (pow2_pos _)
    (FloatFormat.onGrid_half_ulp_one hf) hlarge
  have hP1zero : c.int .P1 = 0 ↔ c.P1.toNat = 0 := Int.natCast_eq_zero
  refine ⟨z, d, ?_, by rw [hd, hzero, hP1zero], hdlarge⟩
  rw [← h20, ← h19]
  simp only [pressDivisor, ieeeSys, Coefs.int]

/-! ### The quotient and what follows it -/

theorem pressOffset_upTo {p2 : Ieee} (h : UpTo (pow2 31) p2) : UpTo (pow2 62) (pressOffset (ieeeSys f toNum) c p2) := by
  have h5 := (UpTo.mul hf 77 (UpTo.mul hf 62 h h) (c.int_upTo hf .P6)).div hf 62 32768 15
  have h7 := UpTo.mul hf 47 (UpTo.mul hf 46 h (c.int_upTo hf .P5)) (lit_upTo hf 2 1 (by decide) (by decide))
  have h10 := UpTo.mul hf 31 (c.int_upTo hf .P4) (lit_upTo hf 65536 16 (by decide) (by decide))
  exact .add hf 62 ((UpTo.add hf 63 h5 h7).div hf 61 4 2) h10

/-- The bound on `p25` depends on the format by the least divisor alone (R70). -/
theorem pressQuotient_upTo (rawP : BitVec 20) {p11 : Ieee} {z : Bool} {d : Rat} {m : Int} (h : UpTo (pow2 62) p11)
    (hd : pow2 (-1 - f.fracBits) ≤ d) (hm : f.Representable (pow2 m)) (hle : 65 + f.fracBits ≤ m) :
    UpTo (pow2 m) (pressQuotient (ieeeSys f toNum) rawP p11 (.fin z d)) := by
  have hraw : UpTo (pow2 20) (ofInt f rawP.toNat) := ofInt_upTo_pow2 hf (toNat_abs_le_pow2 rawP) (by decide) (by decide)
  have h21 := UpTo.sub hf 21 (lit_upTo hf 1048576 20 (by decide) (by decide)) hraw
  have h24 := UpTo.mul hf 64 (UpTo.sub hf 51 h21 (h.div hf 50 4096 12)) (lit_upTo hf 6250 13 (by decide) (by decide))
  exact fdiv_upTo_pow2 h24 hd hm (by omega)

/-- PRESS ends at its guard with +0, or with the correction of a quotient that is bounded (R65, R70). -/
theorem pressPascals_ieee_cases (rawP : BitVec 20) (fine : BitVec 32) {m : Int} (hm : f.Representable (pow2 m))
    (hle : 65 + f.fracBits ≤ m) : pressPascals (ieeeSys f toNum) c rawP fine = .fin false 0 ∨
      ∃ p25, UpTo (pow2 m) p25 ∧ pressPascals (ieeeSys f toNum) c rawP fine = pressCorrect (ieeeSys f toNum) c p25 := by
  have h2 := pressBase_upTo hf toNum fine
  obtain ⟨z, d, h20, -, hlarge⟩ := pressDivisor_spec hf toNum c h2
  have hguard :
      (ieeeSys f toNum).fis0 (pressDivisor (ieeeSys f toNum) c (pressBase (ieeeSys f toNum) fine)) = true ↔ d = 0 := by
    rw [h20]; exact decide_eq_true_iff
  by_cases hd : d = 0
  · exact .inl ((pressPascals_of_guard rawP (hguard.mpr hd)).trans (lit_natCast hf (n := 0) (by decide)))
  · refine .inr ⟨_, pressQuotient_upTo (z := z) hf toNum rawP (pressOffset_upTo hf toNum c h2) (hlarge hd) hm hle, ?_⟩
    rw [pressPascals_of_no_guard rawP (mt hguard.mp hd), h20]

end Press

end Sys2Proof.Machine

namespace Sys2Proof.Ieee

/-! ### Operations that give no NaN -/

variable {f : FloatFormat}

theorem round_ne_nan (neg : Bool) (a : Rat) : f.round neg a ≠ .nan := by
  unfold FloatFormat.round
  split <;> simp

theorem UpTo.ne_nan {x : Ieee} {B : Rat} (hx : UpTo B x) : x ≠ .nan := by
  obtain ⟨s, m, rfl, -, -⟩ := hx
  simp

/-- A sum is no NaN when neither operand is and one of them is finite. -/
theorem fadd_ne_nan {x y : Ieee} (hx : x ≠ .nan) (hy : y ≠ .nan) (h : (∃ B, UpTo B x) ∨ ∃ B, UpTo B y) :
    fadd f x y ≠ .nan := by
  match x, y with
  | .nan, _ => exact absurd rfl hx
  | _, .nan => exact absurd rfl hy
  | .inf _, .inf _ => rcases h with ⟨_, _, _, h, -⟩ | ⟨_, _, _, h, -⟩ <;> cases h
  | .inf _, .fin _ _ => simp [fadd]
  | .fin _ _, .inf _ => simp [fadd]
  | .fin s m, .fin t n =>
    simp only [fadd]
    split
    · simp
    · exact round_ne_nan _ _

theorem fmul_ne_nan {x y : Ieee} {B C : Rat} (hx : UpTo B x) (hy : UpTo C y) : fmul f x y ≠ .nan := by
  obtain ⟨s, m, rfl, -, -⟩ := hx
  obtain ⟨t, n, rfl, -, -⟩ := hy
  exact round_ne_nan _ _

theorem fdiv_ne_nan {x : Ieee} (hx : x ≠ .nan) {t : Bool} {n : Rat} (hn : n ≠ 0) : fdiv f x (.fin t n) ≠ .nan := by
  cases x with
  | nan => exact absurd rfl hx
  | inf s => simp [fdiv]
  | fin s m =>
    simp only [fdiv, if_neg hn]
    exact round_ne_nan _ _

theorem fdiv_literal_ne_nan (hf : f.AtLeast32) {x : Ieee} (hx : x ≠ .nan) {n : Nat} (h0 : n ≠ 0)
    (hn : n ≤ 2 ^ 24 ∨ n = 2 ^ 26 ∨ n = 2 ^ 31) : fdiv f x (ofInt f (n : Int)) ≠ .nan := by
  rw [ofInt_literal hf hn]
  exact fdiv_ne_nan hx (Nat.cast_ne_zero.mpr h0)

end Sys2Proof.Ieee

namespace Sys2Proof.Machine

open Ieee

/-! ### The pressure -/

/-- `p27` may overflow in `binary32`, and from there on an infinity meets only finite values (R70). -/
theorem pressCorrect_ne_nan {f : FloatFormat} (hf : f.AtLeast32) (toNum : Ieee → Number) (c : Coefs) {p25 : Ieee}
    (h : UpTo (pow2 88) p25) : pressCorrect (ieeeSys f toNum) c p25 ≠ .nan := by
  have h27 := fmul_ne_nan (f := f) (UpTo.mul hf 103 (c.int_upTo hf .P9) h) h
  have h28 := fdiv_literal_ne_nan hf h27 (n := 2147483648) (by decide) (by decide)
  have h30 := (UpTo.mul hf 103 h (c.int_upTo hf .P8)).div hf 88 32768 15
  have h31 := fadd_ne_nan (f := f) h28 h30.ne_nan (.inr ⟨_, h30⟩)
  have h32 := fadd_ne_nan (f := f) h31 (c.int_upTo hf .P7).ne_nan (.inr ⟨_, c.int_upTo hf .P7⟩)
  exact fadd_ne_nan h.ne_nan (fdiv_literal_ne_nan hf h32 (n := 16) (by decide) (by decide)) (.inl ⟨_, h⟩)

/-- In `binary64` every value stays far below the overflow bound (R70). -/
theorem pressCorrect_binary64_upTo (toNum : Ieee → Number) (c : Coefs) {p25 : Ieee} (h : UpTo (pow2 117) p25) :
    UpTo (pow2 217) (pressCorrect (ieeeSys .binary64 toNum) c p25) := by
  have hf := FloatFormat.atLeast32_binary64
  have hrep (m : Int) (h1 : -1074 ≤ m := by decide) (h2 : m < 1024 := by decide) :=
    FloatFormat.representable_pow2_binary64 h1 h2
  have h26 := fmul_upTo_pow2 (c.int_upTo hf .P9) h (hrep 132) (by decide)
  have h27 := fmul_upTo_pow2 h26 h (hrep 249) (by decide)
  have h28 := fdiv_literal_upTo hf h27 (n := 2147483648) (b := 31) (by decide) (by decide) (hrep 218) (by decide)
  have h29 := fmul_upTo_pow2 h (c.int_upTo hf .P8) (hrep 132) (by decide)
  have h30 := fdiv_literal_upTo hf h29 (n := 32768) (b := 15) (by decide) (by decide) (hrep 117) (by decide)
  have h31 := fadd_upTo_pow2 h28 h30 (hrep 219) (by decide) (by decide)
  have h32 := fadd_upTo_pow2 h31 (c.int_upTo hf .P7) (hrep 220) (by decide) (by decide)
  have h33 := fdiv_literal_upTo hf h32 (n := 16) (b := 4) (by decide) (by decide) (hrep 216) (by decide)
  exact fadd_upTo_pow2 h h33 (hrep 217) (by decide) (by decide)

/-- Settles O26: the divisor is a finite value, and when it is a zero is said by `pressDivisor_spec`. -/
theorem pressGuardFiresInFloatingPoint : Obligations.PressGuardFiresInFloatingPoint := by
  intro f toNum c fine hf N
  have hf := FloatFormat.atLeast32_of_eq hf
  obtain ⟨z, d, h20, hzero, -⟩ := pressDivisor_spec hf toNum c (pressBase_upTo hf toNum fine)
  have hguard : N.fis0 (.fin z d) = true ↔ d = 0 := decide_eq_true_iff
  rw [h20, hguard, hzero]

theorem pressPascals_exact_of_P1_zero {c : Coefs} (h : c.int .P1 = 0) (rawP : BitVec 20) (fine : BitVec 32) :
    pressPascals exactSys c rawP fine = 0 :=
  (pressPascals_of_guard rawP ((pressGuardFiresExactly c fine).mpr (.inl h))).trans Nat.cast_zero

theorem pressPascals_ieee_of_P1_zero {f : FloatFormat} (hf : f = .binary64 ∨ f = .binary32) (toNum : Ieee → Number)
    {c : Coefs} (h : c.int .P1 = 0) (rawP : BitVec 20) (fine : BitVec 32) :
    pressPascals (ieeeSys f toNum) c rawP fine = .fin false 0 :=
  (pressPascals_of_guard rawP ((pressGuardFiresInFloatingPoint f toNum c fine hf).mpr (.inl h))).trans
    (lit_natCast (FloatFormat.atLeast32_of_eq hf) (n := 0) (by decide))

/-- Settles O27: the guard fires, and `lit(0)` is +0. -/
theorem pressIsPlusZeroWhenP1IsZero : Obligations.PressIsPlusZeroWhenP1IsZero := by
  intro rawP fine s c hp hc h
  refine (exec_press_of_ready hp hc rawP fine).trans
    (congrArg (fun pascals => respond (.pressure pascals) s) ?_)
  cases s.fmt with
  | exact => exact congrArg Number.exact (pressPascals_exact_of_P1_zero h rawP fine)
  | binary64 => exact congrArg Number.binary64 (pressPascals_ieee_of_P1_zero (.inl rfl) _ h rawP fine)
  | binary32 => exact congrArg Number.binary32 (pressPascals_ieee_of_P1_zero (.inr rfl) _ h rawP fine)

theorem pressPascals_binary64_value (toNum : Ieee → Number) (c : Coefs) (rawP : BitVec 20) (fine : BitVec 32) :
    (pressPascals (ieeeSys .binary64 toNum) c rawP fine).value.isSome = true := by
  have hrep := FloatFormat.representable_pow2_binary64 (k := 117) (by decide) (by decide)
  rcases pressPascals_ieee_cases FloatFormat.atLeast32_binary64 toNum c rawP fine hrep (by decide) with h | ⟨p25, h25, h⟩
  · rw [h]; rfl
  · obtain ⟨q, hq, -⟩ := (pressCorrect_binary64_upTo toNum c h25).value
    rw [h, hq]; rfl

theorem pressPascals_binary32_ne_nan (toNum : Ieee → Number) (c : Coefs) (rawP : BitVec 20) (fine : BitVec 32) :
    pressPascals (ieeeSys .binary32 toNum) c rawP fine ≠ .nan := by
  have hf := FloatFormat.atLeast32_binary32
  have hrep := hf.representable_pow2 (k := 88) (by decide) (by decide)
  rcases pressPascals_ieee_cases hf toNum c rawP fine hrep (by decide) with h | ⟨p25, h25, h⟩
  · simp [h]
  · rw [h]; exact pressCorrect_ne_nan hf toNum c h25

/-- Settles O28, by the three formats: only in `binary32` can the pressure be an infinity. -/
theorem pressIsFiniteOrAnInfinityOfBinary32 : Obligations.PressIsFiniteOrAnInfinityOfBinary32 := by
  intro rawP fine s c hp hc
  refine ⟨_, exec_press_of_ready hp hc rawP fine, ?_⟩
  cases s.fmt with
  | exact => exact ⟨fun _ => rfl, nofun⟩
  | binary64 => exact ⟨fun _ => pressPascals_binary64_value _ c rawP fine, nofun⟩
  | binary32 =>
    exact ⟨fun h => absurd rfl h, fun h => pressPascals_binary32_ne_nan _ c rawP fine (Number.binary32.inj h)⟩

end Sys2Proof.Machine
end

section
/-! O4, O13, O36, O37 and O50. The faults of the block (R76 to R87): which actions are answered as a command and which as a
rejected one, what a failed session answers, what a fault leaves, and that no action of a host stops the machine. -/

namespace Sys2Proof.Machine

/-! ### What is answered as a rejected command (R81) -/

/-- A frame that spells no command is rejected with its code byte. -/
theorem presentFrame_of_error {bytes : List Byte} {e : DecodeError} (h : decode bytes = .error e) (s : State) :
    presentFrame bytes s = rejectCommand (offendingCode bytes) s := by
  simp only [presentFrame, h]

theorem presentReserved_of_reserved {code : Byte} (h : opcodeOf code = none) (s : State) :
    presentReserved code s = rejectCommand code s := by
  simp only [presentReserved, h]

/-- Settles O4: both forms of the action are presented as `rejectCommand` of the code byte. -/
theorem noCommandIsAnsweredReservedCommand : Obligations.NoCommandIsAnsweredReservedCommand := by
  intro s rest code h
  have hreject : step s = rejectCommand code (s.withHost rest) := by
    rcases h with ⟨operands, e, hhost, hdec⟩ | ⟨hhost, hcode⟩
    · exact (step_of_host_cons hhost).trans (presentFrame_of_error hdec _)
    · exact (step_of_host_cons hhost).trans (presentReserved_of_reserved ((opcodeOf_eq_none_iff code).mpr hcode) _)
  exact ⟨fun hp => hreject.trans (rejectCommand_of_not_failed (s := s.withHost rest) hp code),
    fun hp => hreject.trans (rejectCommand_of_failed (s := s.withHost rest) hp code)⟩

/-- The actions that a host can take: what is given as a command or as a reserved code is one (R37, R106). -/
def HostAction.Issuable : HostAction → Prop
  | .command i => i.WellFormed
  | .reservedCode code => opcodeOf code = none
  | .frame _ => True
  | .reset => True

/-- An action that a host can take, other than reset, is a command that is run or one that is rejected. -/
theorem present_of_issuable {a : HostAction} (ha : a.Issuable) (hr : a ≠ .reset) (s : State) :
    (∃ i, present a s = exec i s) ∨ ∃ code, present a s = rejectCommand code s := by
  cases a with
  | command i => exact .inl ⟨i, presentCommand_of_wellFormed ha s⟩
  | reservedCode code => exact .inr ⟨code, presentReserved_of_reserved ha s⟩
  | reset => exact absurd rfl hr
  | frame bytes =>
    cases hdec : decode bytes with
    | ok i => exact .inl ⟨i, presentFrame_of_decode hdec s⟩
    | error e => exact .inr ⟨_, presentFrame_of_error hdec s⟩

/-! ### CALDEC, in the order of its checks (R84) -/

/-- Settles O13, by the equations of CALDEC. -/
theorem caldecFaultsInOrder : Obligations.CaldecFaultsInOrder :=
  fun _ _ _ => ⟨execCaldec_of_failed, execCaldec_of_ready,
    fun hp hl => execCaldec_of_wrong_length hp (not_and_or.mpr hl)⟩

/-! ### A failed session (R80) -/

theorem exec_of_failed {s : State} (h : s.phase = .failed) (i : Instr) : exec i s = .next (s.answer ⟨4, s.err, none⟩) := by
  cases i with
  | caldec cala calb => exact execCaldec_of_failed h
  | unpack smp => exact execUnpack_of_failed smp h
  | temp rawT => exact admission_of_failed h
  | press rawP fine => exact admission_of_failed h
  | hum rawH fine => exact admission_of_failed h

theorem present_of_failed {a : HostAction} (ha : a.Issuable) (hr : a ≠ .reset) {s : State} (h : s.phase = .failed) :
    present a s = .next (s.answer ⟨4, s.err, none⟩) := by
  rcases present_of_issuable ha hr s with ⟨i, heq⟩ | ⟨code, heq⟩
  · exact heq.trans (exec_of_failed h i)
  · exact heq.trans (rejectCommand_of_failed h code)

/-- Settles O36: each of the three forms of action is one that a host can take, and none is a reset. -/
theorem failedSessionAnswersEverythingAlike : Obligations.FailedSessionAnswersEverythingAlike := by
  refine fun s hp => ⟨exec_of_failed hp, fun a rest hhost hform => (step_of_host_cons hhost).trans ?_⟩
  have ha : a.Issuable ∧ a ≠ .reset := by
    rcases hform with ⟨i, hwf, rfl⟩ | ⟨bytes, rfl⟩ | ⟨code, hcode, rfl⟩
    · exact ⟨hwf, nofun⟩
    · exact ⟨trivial, nofun⟩
    · exact ⟨(opcodeOf_eq_none_iff code).mpr hcode, nofun⟩
  exact present_of_failed (s := s.withHost rest) ha.1 ha.2 hp

/-! ### What a fault leaves (R86) -/

/-- A response that reports a fault is `SessionFailed` and changes nothing else, or is the first fault of the session. -/
theorem ExecShape.fault_cases {s t : State} {r : Response} (h : ExecShape s t) (hr : t.responses = s.responses ++ [r])
    (hfault : r.IsFault) :
    (s.phase = .failed ∧ r = ⟨4, s.err, none⟩ ∧ t = s.answer r) ∨
    (s.phase ≠ .failed ∧ r.payload = none ∧ t = (s.fail r.status).answer r) := by
  cases h with
  | sessionFailed hp => cases List.append_cancel_left hr; exact .inl ⟨hp, rfl, rfl⟩
  | fails hp => cases List.append_cancel_left hr; exact .inr ⟨hp, rfl, rfl⟩
  | loads => cases List.append_cancel_left hr; exact absurd rfl hfault
  | unpacks => cases List.append_cancel_left hr; exact absurd rfl hfault
  | temperature => cases List.append_cancel_left hr; exact absurd rfl hfault
  | pressure => cases List.append_cancel_left hr; exact absurd rfl hfault
  | humidity => cases List.append_cancel_left hr; exact absurd rfl hfault

/-- Settles O37, by the inversion of `exec`: `SessionFailed` or the first fault. -/
theorem aFaultFailsTheSession : Obligations.AFaultFailsTheSession := by
  intro i s t r hexec hr hfault
  rcases (exec_shape hexec).fault_cases hr hfault with ⟨hp, rfl, rfl⟩ | ⟨hp, hpayload, rfl⟩
  · exact ⟨hp, rfl, rfl, rfl, fun hne => absurd hp hne, fun _ => ⟨rfl, rfl, rfl, rfl⟩⟩
  · exact ⟨rfl, hpayload, rfl, rfl, fun _ => ⟨rfl, rfl⟩, fun hf => absurd hf hp⟩

/-! ### No stop (R82) -/

theorem AnswersByPhase.next {f : State → Host.Outcome State Fault Refusal} {s : State} (h : AnswersByPhase f s) :
    ∃ t, f s = .next t := by
  obtain ⟨e, r, heq⟩ := h
  exact ⟨_, heq s rfl rfl⟩

/-- Admission never stops: in `READY` the coefficient registers hold a set (R17). -/
theorem admission_next {k : Coefs → State → Host.Outcome State Fault Refusal} {s : State} (hs : SessionInv s)
    (hk : ∀ c, ∃ t, k c s = .next t) : ∃ t, admission k s = .next t := by
  cases hp : s.phase with
  | failed => exact ⟨_, admission_of_failed hp⟩
  | empty => exact ⟨_, admission_of_empty hp⟩
  | ready =>
    obtain ⟨hcal, -, -⟩ := hs
    obtain ⟨c, hc⟩ := Option.isSome_iff_exists.mp (hcal.mpr hp)
    rw [admission_of_ready hp hc]
    exact hk c

theorem exec_next {s : State} (hs : SessionInv s) (i : Instr) : ∃ t, exec i s = .next t := by
  cases i with
  | caldec cala calb => exact (execCaldec_answersByPhase cala calb s).next
  | unpack smp => exact (execUnpack_answersByPhase smp s).next
  | temp rawT => exact admission_next hs fun _ => ⟨_, rfl⟩
  | press rawP fine => exact admission_next hs fun _ => ⟨_, rfl⟩
  | hum rawH fine => exact admission_next hs fun _ => ⟨_, rfl⟩

theorem present_next {a : HostAction} (ha : a.Issuable) {s : State} (hs : SessionInv s) : ∃ t, present a s = .next t := by
  by_cases hr : a = .reset
  · exact ⟨s.restart, hr ▸ rfl⟩
  · rcases present_of_issuable ha hr s with ⟨i, heq⟩ | ⟨code, heq⟩
    · exact heq ▸ exec_next hs i
    · exact heq ▸ (rejectCommand_answersByPhase code s).next

/-- Settles O50: the next action is one that a host can take, and such an action never stops the machine. -/
theorem blockNeverStops : Obligations.BlockNeverStops := by
  intro s hs hcommand hreserved
  cases hhost : s.host with
  | nil => exact ⟨s, step_of_host_nil hhost⟩
  | cons a rest =>
    have hmem : a ∈ s.host := hhost ▸ List.mem_cons_self
    have ha : a.Issuable := by
      cases a with
      | command i => exact hcommand i hmem
      | reservedCode code => exact hreserved code hmem
      | frame bytes => trivial
      | reset => trivial
    rw [step_of_host_cons hhost]
    exact present_next (s := s.withHost rest) ha hs

end Sys2Proof.Machine
end

section
/-! O2 and O43. Reset, and when a run goes wrong (R97, R98, R107). -/

namespace Sys2Proof.Machine

/-- Settles O2: reset is presented as `State.restart`, whatever the phase. -/
theorem resetStartsANewSession : Obligations.ResetStartsANewSession :=
  fun _ _ hhost => step_of_host_cons hhost

/-- The responses given between `s` and `t` are added to those of `s`, and `t` has failed exactly if `s` had or one of them
is a fault (R86, R107). -/
def FailsByFaults (s t : State) : Prop :=
  ∃ given : List Response, t.responses = s.responses ++ given ∧
    (t.phase = .failed ↔ s.phase = .failed ∨ ∃ r ∈ given, r.IsFault)

theorem FailsByFaults.refl (s : State) : FailsByFaults s s := ⟨[], by simp⟩

theorem FailsByFaults.trans {s t u : State} (hst : FailsByFaults s t) (htu : FailsByFaults t u) : FailsByFaults s u := by
  obtain ⟨given, hresp, hphase⟩ := hst
  obtain ⟨later, hresp', hphase'⟩ := htu
  refine ⟨given ++ later, by rw [hresp', hresp, List.append_assoc], ?_⟩
  simp only [hphase', hphase, List.mem_append, or_and_right, exists_or, or_assoc]

/-- One response more keeps `FailsByFaults` if it is a fault exactly when it leaves the session failed, and failed is not
left. -/
theorem failsByFaults_of_response {s t : State} {r : Response} (hresp : t.responses = s.responses ++ [r])
    (hfault : t.phase = .failed ↔ r.IsFault) (hstays : s.phase = .failed → t.phase = .failed) : FailsByFaults s t := by
  refine ⟨[r], hresp, fun ht => .inr ⟨r, List.mem_singleton_self r, hfault.mp ht⟩, ?_⟩
  rintro (hs | ⟨q, hq, hqf⟩)
  · exact hstays hs
  · exact hfault.mpr (List.mem_singleton.mp hq ▸ hqf)

/-- A command's response is a fault exactly when the session is failed after it (R80, R86). -/
theorem ExecShape.failed_iff_fault {s t : State} (h : ExecShape s t) :
    ∃ r : Response, t.responses = s.responses ++ [r] ∧ (t.phase = .failed ↔ r.IsFault) := by
  cases h with
  | sessionFailed hp => exact ⟨_, rfl, by simp [hp]⟩
  | fails _ code info hcode =>
    have hne : code ≠ 0 := by rcases hcode with rfl | rfl | rfl | rfl <;> decide
    exact ⟨_, rfl, iff_of_true rfl hne⟩
  | loads => exact ⟨_, rfl, by simp⟩
  | unpacks hp => exact ⟨_, rfl, by simp [hp]⟩
  | temperature hp => exact ⟨_, rfl, by simp [hp]⟩
  | pressure hp => exact ⟨_, rfl, by simp [hp]⟩
  | humidity hp => exact ⟨_, rfl, by simp [hp]⟩

theorem failsByFaults_of_step {s t : State} (h : step s = .next t) (hr : s.host.head? ≠ some .reset) :
    FailsByFaults s t := by
  rcases step_cases h with ⟨-, rfl⟩ | ⟨a, rest, hhost, ⟨rfl, -⟩ | ⟨-, hshape⟩⟩
  · exact .refl t
  · exact absurd (by simp [hhost]) hr
  · obtain ⟨r, hresp, hfault⟩ := hshape.failed_iff_fault
    exact failsByFaults_of_response hresp hfault (sessionStep_of_step h hr).failed_stays

/-- Settles O43, by induction over the run. -/
theorem runGoesWrongExactlyWhenItFails : Obligations.RunGoesWrongExactlyWhenItFails := by
  intro k s t hn hs hrun
  have hst : FailsByFaults s t := run_induction FailsByFaults FailsByFaults.refl
    (fun _ _ _ hn hstep => (failsByFaults_of_step hstep fun hr => hn _ (List.mem_of_head? hr) rfl).trans) k s t hn hrun
  obtain ⟨given, hresp, hphase⟩ := hst
  rw [hresp, List.drop_left, hphase, or_iff_right hs]

end Sys2Proof.Machine
end
